-- ==== Sys2Proof/Word.lean ====
section
/-! DEFINITION. The word types of GPIOMUX: what the spec treats as bits (00_scope.md R9, R10). -/

namespace Sys2Proof

/-- A 32-bit register of a port group, or a command word (R9). -/
abbrev Word := BitVec 32

/-- An 8-bit configuration or multiplexer register (R9). -/
abbrev Byte := BitVec 8

/-- The PORT field of a command word: a port group by number (30_encoding.md R81). -/
abbrev Port := BitVec 11

/-- The BIT field of a command word: a pin of its group (30_encoding.md R81). -/
abbrev Pin := BitVec 5

/-- A pin identifier (00_scope.md R12). -/
abbrev PinId := BitVec 16

/-- The number of a pin pair, that is of a multiplexer byte of its group (10_state.md R26). -/
abbrev Pair := BitVec 4

end Sys2Proof
end

