-- ==== Sys2Proof/Config.lean ====
section
/-! DEFINITION. The parameters of an implementation (00_scope.md R6 to R9) and the free values (R11 draw). -/

namespace Sys2Proof

/-- The parameters a model of GPIOMUX takes (R6, R8, R9). They are carried by the state and no step writes them
(log 2), so that a statement about every state is a statement about every value of them. -/
structure Config where
  /-- `NUM_PORTS`, R6. -/
  numPorts : Nat
  /-- `NUM_FUNCS`, R8. -/
  numFuncs : Nat
  /-- `PORT_BASE`, 20_memory.md R51: a host address, here a natural number without an upper bound (log 18). -/
  portBase : Nat
  /-- `LOOPBACK_EXACT`, 10_state.md R31. -/
  loopbackExact : Bool
deriving DecidableEq, Repr

/-- The values the spec admits for the parameters: R6, R8, and `PORT_BASE` aligned to `0x80` (R51). R51 also asks that all
`NUM_PORTS` windows fit in the host's address space and gives no size of it: host addresses are unbounded natural numbers here,
so the windows always fit and nothing is checked. DESIGN CHOICE (log 18). -/
def Config.wf (c : Config) : Bool :=
  decide (1 ≤ c.numPorts) && decide (c.numPorts ≤ 2048) && decide (1 ≤ c.numFuncs) && decide (c.numFuncs ≤ 16) &&
    decide (c.portBase % 0x80 = 0)

/-- The identity string a model reports (R1). -/
def Config.identity : String := "GPIOMUX-wilsoc5-klipper-v7"

/-- The parameters of the state after reset: those of 95_test_vectors.md section 0, with `PORT_BASE` 0.
DESIGN CHOICE, unsafe for a statement about the reset state alone (log 2). -/
def Config.launch : Config := { numPorts := 4, numFuncs := 8, portBase := 0, loopbackExact := true }

/-- FREE VALUE (10_state.md R31, R32; log 5): the levels the pin environment and the peripherals supply to the n-th
draw, one bit a pin. It has no body: nothing can be proved about a value of it. -/
opaque Config.pinLevels : Nat → Word

/-- FREE VALUE (60_exceptions.md R206; log 6): which of the interrupt contexts that have not begun begins at the n-th
point where one may, or that none does. -/
opaque Config.arrival : Nat → Option Nat

/-- FREE VALUE (10_state.md R34, U7 of 93_implementation_defined.md; log 17): what `TOKEN` holds after a guarded command has
ended, until the next one writes it. -/
opaque Config.freeToken : Nat → Bool

/-- FREE VALUE (10_state.md R34, U7 of 93_implementation_defined.md; log 17): what `TMP` holds after a guarded command has
ended, until CFGP writes it. -/
opaque Config.freeTmp : Nat → Byte

end Sys2Proof
end

