-- ==== Sys2Proof/Syntax.lean ====
section
/-! DEFINITION. The instructions of GPIOMUX, one constructor per row of opcode_table.json (30_encoding.md R82, R92), the
registers a bus access names, and what a context presents to the block. -/

namespace Sys2Proof

/-- A tri-state pull request (00_scope.md R13). -/
inductive Pull where
  | minus
  | zero
  | plus
deriving DecidableEq, Repr

/-- The function selector of CFGP (30_encoding.md R85): "none" (plain GPIO) or the letter `'A' + n`. -/
inductive FuncSel where
  | gpio
  | letter (n : BitVec 4)
deriving DecidableEq, Repr

/-- The instructions: nine commands of the sequencer and ten bus accesses. A bus access names its group by number. -/
inductive Instr where
  /-- CFGP, 40_peripheral_mux.md R112. -/
  | cfgp (g : Port) (b : Pin) (f : FuncSel) (p : Pull)
  /-- OSETUP, 41_output.md R131. -/
  | osetup (pin : PinId) (v : Bool)
  /-- ORESET, R133. -/
  | oreset (g : Port) (b : Pin) (v : Bool)
  /-- OWRITE, R136. -/
  | owrite (g : Port) (b : Pin) (v : Bool)
  /-- OTOGGLE, R138. -/
  | otoggle (g : Port) (b : Pin)
  /-- OTOGGLE.NOIRQ, R139. -/
  | otoggleNoirq (g : Port) (b : Pin)
  /-- ISETUP, 42_input.md R161. -/
  | isetup (pin : PinId) (p : Pull)
  /-- IRESET, R163. -/
  | ireset (g : Port) (b : Pin) (p : Pull)
  /-- IREAD, R166. -/
  | iread (g : Port) (b : Pin)
  /-- ST.W DIRCLR, 43_bus_access.md R180. -/
  | stwDirclr (g : Nat) (v : Word)
  /-- ST.W DIRSET, R181. -/
  | stwDirset (g : Nat) (v : Word)
  /-- ST.W OUTCLR, R182. -/
  | stwOutclr (g : Nat) (v : Word)
  /-- ST.W OUTSET, R183. -/
  | stwOutset (g : Nat) (v : Word)
  /-- ST.W OUTTGL, R184. -/
  | stwOuttgl (g : Nat) (v : Word)
  /-- LD.W IN, R185. -/
  | ldwIn (g : Nat)
  /-- LD.B PMUX, R186. -/
  | ldbPmux (g : Nat) (k : Pair)
  /-- ST.B PMUX, R187. -/
  | stbPmux (g : Nat) (k : Pair) (v : Byte)
  /-- LD.B PINCFG, R188. -/
  | ldbPincfg (g : Nat) (b : Pin)
  /-- ST.B PINCFG, R189. -/
  | stbPincfg (g : Nat) (b : Pin) (v : Byte)
deriving DecidableEq, Repr

/-- The pseudo-instructions of 30_encoding.md R94. -/
inductive Pseudo where
  | cfgpGpio (g : Port) (b : Pin) (p : Pull)
  | oset (g : Port) (b : Pin)
  | oclr (g : Port) (b : Pin)
  | osetupPin (g : Port) (b : Pin) (v : Bool)
  | isetupPin (g : Port) (b : Pin) (p : Pull)
deriving DecidableEq, Repr

/-- The opcodes of 30_encoding.md R82 that are not reserved. -/
inductive Opcode where
  | cfgp
  | osetup
  | oreset
  | owrite
  | otoggle
  | otoggleNoirq
  | isetup
  | ireset
  | iread
deriving DecidableEq, Repr

/-- The registers of a port group that have an offset (20_memory.md R52). -/
inductive Reg where
  | dirclr
  | dirset
  | outclr
  | outset
  | outtgl
  | inp
  | pmux (k : Pair)
  | pincfg (b : Pin)
deriving DecidableEq, Repr

/-- One bus access as the host makes it (R11 MemRead and MemWrite): direction, width in bytes, host address, and for a
write the value. The address is an unbounded natural number (log 18); a one-byte write carries the low 8 bits of `data`
(log 14). -/
structure Access where
  write : Bool
  size : Nat
  addr : Nat
  data : Word
deriving DecidableEq, Repr

/-- What a context does next: it presents a command word (30_encoding.md R80), makes a bus access (43_bus_access.md), or
touches its host's interrupt-enable bit (10_state.md R37; log 11). -/
inductive Request where
  | command (w : Word)
  | bus (a : Access)
  /-- `critical_section_enter()` by the context itself (60_exceptions.md R211). -/
  | enter
  /-- `critical_section_exit(token)` with the token of the innermost open section. -/
  | exit
  /-- The host sets its own interrupt-enable bit. -/
  | setIe (v : Bool)
deriving DecidableEq, Repr

/-- The reasons of a refusal (60_exceptions.md R207). -/
inductive RefuseReason where
  | reservedOpcode
  | reservedField
  | reservedPull
  | badFunction
  | badHandle
  | busAccess
deriving DecidableEq, Repr

/-- Why a request has no instruction: the spec refuses it (R207), or its address is in no window of the block, so that no
rule applies to it (20_memory.md R51; log 9). -/
inductive Reject where
  | refuse (r : RefuseReason)
  | outside (addr : Nat)
deriving DecidableEq, Repr

end Sys2Proof
end

