-- ==== Sys2Proof/Decode.lean ====
section
/-! DEFINITION. The register map (20_memory.md R51, R52, R62), the decoder of command words and bus accesses (30_encoding.md
R81 to R92), total, refusing by name; after it the encoder, from the same tables, and the assembler text (R93, R94). -/

namespace Sys2Proof

/-! ## The register map -/

/-- `GROUP_STRIDE` (20_memory.md R51). -/
def groupStride : Nat := 0x80

/-- `A(g, OFF)`: the host address of offset `off` of group `g` (R51). -/
def regAddr (base g off : Nat) : Nat := base + g * groupStride + off

/-- The group and the offset an address names; none where it lies below the first window (R51). -/
def locate (base addr : Nat) : Option (Nat × Nat) :=
  if addr < base then none else some ((addr - base) / groupStride, (addr - base) % groupStride)

/-- The register at an offset of a group's window; none at a reserved offset and inside a register (R52, R54). -/
def regAt (off : Nat) : Option Reg :=
  if off = 0x04 then some .dirclr
  else if off = 0x08 then some .dirset
  else if off = 0x14 then some .outclr
  else if off = 0x18 then some .outset
  else if off = 0x1C then some .outtgl
  else if off = 0x20 then some .inp
  else if 0x30 ≤ off ∧ off < 0x40 then some (.pmux (BitVec.ofNat 4 (off - 0x30)))
  else if 0x40 ≤ off ∧ off < 0x60 then some (.pincfg (BitVec.ofNat 5 (off - 0x40)))
  else none

/-- The offset of a register in its group's window (R52). -/
def Reg.offset : Reg → Nat
  | .dirclr => 0x04
  | .dirset => 0x08
  | .outclr => 0x14
  | .outset => 0x18
  | .outtgl => 0x1C
  | .inp => 0x20
  | .pmux k => 0x30 + k.toNat
  | .pincfg b => 0x40 + b.toNat

/-- The one access width of a register, in bytes (R54). -/
def Reg.width : Reg → Nat
  | .pmux _ | .pincfg _ => 1
  | _ => 4

/-- Whether a register may be read (R52). -/
def Reg.readable : Reg → Bool
  | .inp | .pmux _ | .pincfg _ => true
  | _ => false

/-- Whether a register may be written (R52). -/
def Reg.writable : Reg → Bool
  | .inp => false
  | _ => true

/-- The legal bytes of a configuration register (10_state.md R23). -/
def pincfgLegal (v : Byte) : Bool := v == 0x00 || v == 0x01 || v == 0x04 || v == 0x05

/-- The legal bytes of a multiplexer register: both nibbles below `NUM_FUNCS` (R26). -/
def pmuxLegal (numFuncs : Nat) (v : Byte) : Bool :=
  decide ((v.extractLsb' 0 4).toNat < numFuncs) && decide ((v.extractLsb' 4 4).toNat < numFuncs)

/-- The byte a one-byte write carries. -/
def lowByte (v : Word) : Byte := v.extractLsb' 0 8

/-- The values a register may be written with (20_memory.md R61, R62). -/
def Reg.accepts (numFuncs : Nat) (v : Word) : Reg → Bool
  | .pmux _ => pmuxLegal numFuncs (lowByte v)
  | .pincfg _ => pincfgLegal (lowByte v)
  | _ => true

/-- Whether register `r` of group `g` takes the access: the group exists, the width is the register's, and the register may be
read, or written with this value (R54, R62). -/
def Access.fits (c : Config) (a : Access) (g : Nat) (r : Reg) : Bool :=
  decide (g < c.numPorts) && a.size == r.width &&
    (if a.write then r.writable && r.accepts c.numFuncs a.data else r.readable)

/-- Whether a bus access reaches a register, and which of which group (R51, R54, R62): every refusal of R62 is here. -/
def resolve (c : Config) (a : Access) : Except Reject (Nat × Reg) :=
  match locate c.portBase a.addr with
  | none => .error (.outside a.addr)
  | some (g, off) =>
    match regAt off with
    | none => .error (.refuse .busAccess)
    | some r => if a.fits c g r then .ok (g, r) else .error (.refuse .busAccess)

/-! ## Fields of a command word -/

/-- The opcode map (30_encoding.md R82); none for a reserved opcode (R90). -/
def Opcode.ofBits (b : BitVec 4) : Option Opcode :=
  if b = 0x1 then some .cfgp
  else if b = 0x2 then some .osetup
  else if b = 0x3 then some .oreset
  else if b = 0x4 then some .owrite
  else if b = 0x5 then some .otoggle
  else if b = 0x6 then some .otoggleNoirq
  else if b = 0x7 then some .isetup
  else if b = 0x8 then some .ireset
  else if b = 0x9 then some .iread
  else none

/-- The OP field of an opcode (R82). -/
def Opcode.bits : Opcode → BitVec 4
  | .cfgp => 0x1
  | .osetup => 0x2
  | .oreset => 0x3
  | .owrite => 0x4
  | .otoggle => 0x5
  | .otoggleNoirq => 0x6
  | .isetup => 0x7
  | .ireset => 0x8
  | .iread => 0x9

/-- The match column of R88. -/
def Opcode.matchBits : Opcode → Word
  | .cfgp => 0x10000000
  | .osetup => 0x20000000
  | .oreset => 0x30000000
  | .owrite => 0x40000000
  | .otoggle => 0x50000000
  | .otoggleNoirq => 0x60000000
  | .isetup => 0x70000000
  | .ireset => 0x80000000
  | .iread => 0x90000000

/-- The mask column of R88. -/
def Opcode.mask : Opcode → Word
  | .cfgp => 0xFB000000
  | .osetup => 0xFDFF0000
  | .oreset => 0xFDFF0000
  | .owrite => 0xFDFF0000
  | .otoggle => 0xFFFF0000
  | .otoggleNoirq => 0xFFFF0000
  | .isetup => 0xF3FF0000
  | .ireset => 0xF3FF0000
  | .iread => 0xFFFF0000

/-- PULL as a tri-state value; none for the reserved `10` (R83). -/
def Pull.ofBits (b : BitVec 2) : Option Pull :=
  if b = 0 then some .zero else if b = 1 then some .plus else if b = 3 then some .minus else none

/-- The PULL field of a tri-state value (R83). -/
def Pull.bits : Pull → BitVec 2
  | .zero => 0
  | .plus => 1
  | .minus => 3

/-- FSEL as a selector: `0x00` none, `0x41` to `0x40 + NUM_FUNCS` the letters; none of these elsewhere (R85). -/
def FuncSel.ofBits (numFuncs : Nat) (b : BitVec 8) : Option FuncSel :=
  if b = 0x00 then some .gpio
  else if 0x41 ≤ b.toNat ∧ b.toNat ≤ 0x40 + numFuncs then some (.letter ((b - 0x41).extractLsb' 0 4))
  else none

/-- The FSEL field of a selector (R85). -/
def FuncSel.bits : FuncSel → BitVec 8
  | .gpio => 0x00
  | .letter n => 0x41 + n.zeroExtend 8

/-- The fields of format C (R81). -/
def wordOp (w : Word) : BitVec 4 := w.extractLsb' 28 4
def wordPull (w : Word) : BitVec 2 := w.extractLsb' 26 2
def wordVal (w : Word) : Bool := w.getLsbD 25
def wordFsel (w : Word) : BitVec 8 := w.extractLsb' 16 8
def wordPin (w : Word) : PinId := w.extractLsb' 0 16
def wordPort (w : Word) : Port := w.extractLsb' 5 11
def wordBit (w : Word) : Pin := w.extractLsb' 0 5

/-! ## Decode -/

/-- Check 5 of R87: a handle or bank command whose port exists. -/
def checkHandle (c : Config) (g : Port) (i : Instr) : Except RefuseReason Instr :=
  if g.toNat < c.numPorts then .ok i else .error .badHandle

/-- Check 3 of R87: the pull request of ISETUP and IRESET. -/
def checkPull (b : BitVec 2) : Except RefuseReason Pull :=
  match Pull.ofBits b with
  | some p => .ok p
  | none => .error .reservedPull

/-- Check 4 of R87: the function selector of CFGP. -/
def checkFunc (c : Config) (b : BitVec 8) : Except RefuseReason FuncSel :=
  match FuncSel.ofBits c.numFuncs b with
  | some f => .ok f
  | none => .error .badFunction

/-- The operands of a command whose word has passed checks 1 and 2 of R87 (R89), with checks 3 to 5. -/
def decodeOperands (c : Config) (w : Word) : Opcode → Except RefuseReason Instr
  | .cfgp =>
    match checkFunc c (wordFsel w) with
    | .error e => .error e
    | .ok f => checkHandle c (wordPort w) (.cfgp (wordPort w) (wordBit w) f (if w.getLsbD 26 then .plus else .zero))
  | .osetup => .ok (.osetup (wordPin w) (wordVal w))
  | .oreset => checkHandle c (wordPort w) (.oreset (wordPort w) (wordBit w) (wordVal w))
  | .owrite => checkHandle c (wordPort w) (.owrite (wordPort w) (wordBit w) (wordVal w))
  | .otoggle => checkHandle c (wordPort w) (.otoggle (wordPort w) (wordBit w))
  | .otoggleNoirq => checkHandle c (wordPort w) (.otoggleNoirq (wordPort w) (wordBit w))
  | .isetup =>
    match checkPull (wordPull w) with
    | .error e => .error e
    | .ok p => .ok (.isetup (wordPin w) p)
  | .ireset =>
    match checkPull (wordPull w) with
    | .error e => .error e
    | .ok p => checkHandle c (wordPort w) (.ireset (wordPort w) (wordBit w) p)
  | .iread => checkHandle c (wordPort w) (.iread (wordPort w) (wordBit w))

/-- The decoder of command words: the five checks of R87, in their order. -/
def decodeWord (c : Config) (w : Word) : Except RefuseReason Instr :=
  match Opcode.ofBits (wordOp w) with
  | none => .error .reservedOpcode
  | some op => if w &&& op.mask = op.matchBits then decodeOperands c w op else .error .reservedField

/-- The instruction of an admitted access to register `r` of group `g` (43_bus_access.md). -/
def accessInstr (write : Bool) (g : Nat) (v : Word) : Reg → Instr
  | .dirclr => .stwDirclr g v
  | .dirset => .stwDirset g v
  | .outclr => .stwOutclr g v
  | .outset => .stwOutset g v
  | .outtgl => .stwOuttgl g v
  | .inp => .ldwIn g
  | .pmux k => if write then .stbPmux g k (lowByte v) else .ldbPmux g k
  | .pincfg b => if write then .stbPincfg g b (lowByte v) else .ldbPincfg g b

/-- The decoder of bus accesses (30_encoding.md R92, 20_memory.md R62). -/
def decodeAccess (c : Config) (a : Access) : Except Reject Instr :=
  match resolve c a with
  | .error e => .error e
  | .ok (g, r) => .ok (accessInstr a.write g a.data r)

/-! ## Encode -/

/-- Format C (R81): the fields of a command word, the unread ones zero. -/
def formatC (op : Opcode) (pull : BitVec 2) (val : Bool) (fsel : BitVec 8) (pin : PinId) : Word :=
  op.bits ++ pull ++ BitVec.ofBool val ++ 0#1 ++ fsel ++ pin

/-- PIN = {PORT, BIT} (R81). -/
def pinOf (g : Port) (b : Pin) : PinId := g ++ b

/-- A bus access to a register, at its own width (R54). -/
def accessOf (c : Config) (write : Bool) (g : Nat) (r : Reg) (v : Word) : Access :=
  { write := write, size := r.width, addr := regAddr c.portBase g r.offset, data := v }

/-- The encoder: the command word or the bus access of an instruction (R81 to R85, R88, R92). -/
def encode (c : Config) : Instr → Request
  | .cfgp g b f p => .command (formatC .cfgp p.bits false f.bits (pinOf g b))
  | .osetup pin v => .command (formatC .osetup 0 v 0 pin)
  | .oreset g b v => .command (formatC .oreset 0 v 0 (pinOf g b))
  | .owrite g b v => .command (formatC .owrite 0 v 0 (pinOf g b))
  | .otoggle g b => .command (formatC .otoggle 0 false 0 (pinOf g b))
  | .otoggleNoirq g b => .command (formatC .otoggleNoirq 0 false 0 (pinOf g b))
  | .isetup pin p => .command (formatC .isetup p.bits false 0 pin)
  | .ireset g b p => .command (formatC .ireset p.bits false 0 (pinOf g b))
  | .iread g b => .command (formatC .iread 0 false 0 (pinOf g b))
  | .stwDirclr g v => .bus (accessOf c true g .dirclr v)
  | .stwDirset g v => .bus (accessOf c true g .dirset v)
  | .stwOutclr g v => .bus (accessOf c true g .outclr v)
  | .stwOutset g v => .bus (accessOf c true g .outset v)
  | .stwOuttgl g v => .bus (accessOf c true g .outtgl v)
  | .ldwIn g => .bus (accessOf c false g .inp 0)
  | .ldbPmux g k => .bus (accessOf c false g (.pmux k) 0)
  | .stbPmux g k v => .bus (accessOf c true g (.pmux k) (v.zeroExtend 32))
  | .ldbPincfg g b => .bus (accessOf c false g (.pincfg b) 0)
  | .stbPincfg g b v => .bus (accessOf c true g (.pincfg b) (v.zeroExtend 32))

/-- The instruction a request stands for; none for a request that touches only the host's interrupt-enable bit. -/
def decodeRequest (c : Config) : Request → Option (Except Reject Instr)
  | .command w =>
    match decodeWord c w with
    | .ok i => some (.ok i)
    | .error e => some (.error (.refuse e))
  | .bus a => some (decodeAccess c a)
  | .enter | .exit | .setIe _ => none

/-! ## The rows of the opcode table -/

/-- The 9-bit descriptor `{W, SZ, OFF}` of an access (R92). -/
def descriptorOf (write : Bool) (r : Reg) : BitVec 9 :=
  BitVec.ofBool write ++ BitVec.ofBool (r.width == 4) ++ BitVec.ofNat 7 r.offset

/-- The bits opcode_table.json gives an instruction: its command word, or its 9-bit descriptor. -/
def tableBits : Instr → Nat
  | .cfgp g b f p => (formatC .cfgp p.bits false f.bits (pinOf g b)).toNat
  | .osetup pin v => (formatC .osetup 0 v 0 pin).toNat
  | .oreset g b v => (formatC .oreset 0 v 0 (pinOf g b)).toNat
  | .owrite g b v => (formatC .owrite 0 v 0 (pinOf g b)).toNat
  | .otoggle g b => (formatC .otoggle 0 false 0 (pinOf g b)).toNat
  | .otoggleNoirq g b => (formatC .otoggleNoirq 0 false 0 (pinOf g b)).toNat
  | .isetup pin p => (formatC .isetup p.bits false 0 pin).toNat
  | .ireset g b p => (formatC .ireset p.bits false 0 (pinOf g b)).toNat
  | .iread g b => (formatC .iread 0 false 0 (pinOf g b)).toNat
  | .stwDirclr _ _ => (descriptorOf true .dirclr).toNat
  | .stwDirset _ _ => (descriptorOf true .dirset).toNat
  | .stwOutclr _ _ => (descriptorOf true .outclr).toNat
  | .stwOutset _ _ => (descriptorOf true .outset).toNat
  | .stwOuttgl _ _ => (descriptorOf true .outtgl).toNat
  | .ldwIn _ => (descriptorOf false .inp).toNat
  | .ldbPmux _ k => (descriptorOf false (.pmux k)).toNat
  | .stbPmux _ k _ => (descriptorOf true (.pmux k)).toNat
  | .ldbPincfg _ b => (descriptorOf false (.pincfg b)).toNat
  | .stbPincfg _ b _ => (descriptorOf true (.pincfg b)).toNat

/-- The request whose table bits are `w` (log 14). A row of at most 16 bits is a bus access by its 9-bit descriptor, to group
0 and with data 0, since the table gives these operands no bits; bits above the descriptor are no access of R92 and are
laid out as an access of width 0, which no register has. A longer row is a command word. -/
def tableRequest (c : Config) (nbits w : Nat) : Request :=
  if nbits ≤ 16 then
    .bus { write := w.testBit 8, size := if 512 ≤ w then 0 else if w.testBit 7 then 4 else 1,
           addr := regAddr c.portBase 0 (w % 128), data := 0 }
  else .command (BitVec.ofNat 32 w)

/-- The instruction the decoder reads from a table row's bits, with the parameters of the reset state. -/
def decodeTableWord (nbits w : Nat) : Option Instr :=
  match decodeRequest Config.launch (tableRequest Config.launch nbits w) with
  | some (.ok i) => some i
  | _ => none

/-- A row of the opcode table: bits that are fixed and their values (R88, R92). -/
structure TableRow where
  mnemonic : String
  width : Nat
  fixed : Nat
  mask : Nat
deriving DecidableEq, Repr

/-- The rows of the nine commands (R88). -/
def commandRows : List TableRow :=
  [⟨"CFGP", 32, 0x10000000, 0xFB000000⟩, ⟨"OSETUP", 32, 0x20000000, 0xFDFF0000⟩, ⟨"ORESET", 32, 0x30000000, 0xFDFF0000⟩,
   ⟨"OWRITE", 32, 0x40000000, 0xFDFF0000⟩, ⟨"OTOGGLE", 32, 0x50000000, 0xFFFF0000⟩,
   ⟨"OTOGGLE.NOIRQ", 32, 0x60000000, 0xFFFF0000⟩, ⟨"ISETUP", 32, 0x70000000, 0xF3FF0000⟩,
   ⟨"IRESET", 32, 0x80000000, 0xF3FF0000⟩, ⟨"IREAD", 32, 0x90000000, 0xFFFF0000⟩]

/-- The rows of the ten bus accesses (R92). -/
def accessRows : List TableRow :=
  [⟨"ST.W_DIRCLR", 9, 0x184, 0x1FF⟩, ⟨"ST.W_DIRSET", 9, 0x188, 0x1FF⟩, ⟨"ST.W_OUTCLR", 9, 0x194, 0x1FF⟩,
   ⟨"ST.W_OUTSET", 9, 0x198, 0x1FF⟩, ⟨"ST.W_OUTTGL", 9, 0x19C, 0x1FF⟩, ⟨"LD.W_IN", 9, 0x0A0, 0x1FF⟩,
   ⟨"LD.B_PMUX", 9, 0x030, 0x1F0⟩, ⟨"ST.B_PMUX", 9, 0x130, 0x1F0⟩, ⟨"LD.B_PINCFG", 9, 0x040, 0x1E0⟩,
   ⟨"ST.B_PINCFG", 9, 0x140, 0x1E0⟩]

/-- Two rows that no bits satisfy both of. -/
def TableRow.disjoint (a b : TableRow) : Bool := (a.fixed &&& b.mask) != (b.fixed &&& a.mask)

/-- The mnemonic of an instruction's row. -/
def Instr.mnemonic : Instr → String
  | .cfgp .. => "CFGP"
  | .osetup .. => "OSETUP"
  | .oreset .. => "ORESET"
  | .owrite .. => "OWRITE"
  | .otoggle .. => "OTOGGLE"
  | .otoggleNoirq .. => "OTOGGLE.NOIRQ"
  | .isetup .. => "ISETUP"
  | .ireset .. => "IRESET"
  | .iread .. => "IREAD"
  | .stwDirclr .. => "ST.W_DIRCLR"
  | .stwDirset .. => "ST.W_DIRSET"
  | .stwOutclr .. => "ST.W_OUTCLR"
  | .stwOutset .. => "ST.W_OUTSET"
  | .stwOuttgl .. => "ST.W_OUTTGL"
  | .ldwIn .. => "LD.W_IN"
  | .ldbPmux .. => "LD.B_PMUX"
  | .stbPmux .. => "ST.B_PMUX"
  | .ldbPincfg .. => "LD.B_PINCFG"
  | .stbPincfg .. => "ST.B_PINCFG"

/-! ## Assembler text and pseudo-instructions -/

/-- The expansions of R94. -/
def Pseudo.expand : Pseudo → Instr
  | .cfgpGpio g b p => .cfgp g b .gpio p
  | .oset g b => .owrite g b true
  | .oclr g b => .owrite g b false
  | .osetupPin g b v => .osetup (pinOf g b) v
  | .isetupPin g b p => .isetup (pinOf g b) p

/-- A handle or bank operand `g.b` (R93). -/
def asmHandle (g : Port) (b : Pin) : String := g.toNat.repr ++ "." ++ b.toNat.repr

/-- A level operand (R93). -/
def asmLevel (v : Bool) : String := if v then "1" else "0"

/-- A pull operand (R93). -/
def asmPull : Pull → String
  | .minus => "-1"
  | .zero => "0"
  | .plus => "+1"

/-- A function operand (R93). -/
def asmFunc : FuncSel → String
  | .gpio => "none"
  | .letter n => "'" ++ String.singleton (Char.ofNat (0x41 + n.toNat)) ++ "'"

/-- The assembler text of an instruction (R93); numbers are written in decimal. -/
def asmText : Instr → String
  | .cfgp g b f p => "cfgp " ++ asmHandle g b ++ ", " ++ asmFunc f ++ ", " ++ asmPull p
  | .osetup pin v => "osetup " ++ pin.toNat.repr ++ ", " ++ asmLevel v
  | .oreset g b v => "oreset " ++ asmHandle g b ++ ", " ++ asmLevel v
  | .owrite g b v => "owrite " ++ asmHandle g b ++ ", " ++ asmLevel v
  | .otoggle g b => "otoggle " ++ asmHandle g b
  | .otoggleNoirq g b => "otoggle.noirq " ++ asmHandle g b
  | .isetup pin p => "isetup " ++ pin.toNat.repr ++ ", " ++ asmPull p
  | .ireset g b p => "ireset " ++ asmHandle g b ++ ", " ++ asmPull p
  | .iread g b => "iread " ++ asmHandle g b
  | .stwDirclr g v => "st.w " ++ g.repr ++ ":DIRCLR, " ++ v.toNat.repr
  | .stwDirset g v => "st.w " ++ g.repr ++ ":DIRSET, " ++ v.toNat.repr
  | .stwOutclr g v => "st.w " ++ g.repr ++ ":OUTCLR, " ++ v.toNat.repr
  | .stwOutset g v => "st.w " ++ g.repr ++ ":OUTSET, " ++ v.toNat.repr
  | .stwOuttgl g v => "st.w " ++ g.repr ++ ":OUTTGL, " ++ v.toNat.repr
  | .ldwIn g => "ld.w " ++ g.repr ++ ":IN"
  | .ldbPmux g k => "ld.b " ++ g.repr ++ ":PMUX[" ++ k.toNat.repr ++ "]"
  | .stbPmux g k v => "st.b " ++ g.repr ++ ":PMUX[" ++ k.toNat.repr ++ "], " ++ v.toNat.repr
  | .ldbPincfg g b => "ld.b " ++ g.repr ++ ":PINCFG[" ++ b.toNat.repr ++ "]"
  | .stbPincfg g b v => "st.b " ++ g.repr ++ ":PINCFG[" ++ b.toNat.repr ++ "], " ++ v.toNat.repr

end Sys2Proof
end

