-- ==== Sys2Proof/WellFormed.lean ====
section
/-! DEFINITION. Which instructions the spec admits: the ones a decoder may answer (30_encoding.md R87, 20_memory.md R62). -/

namespace Sys2Proof

/-- A selector whose letter exists (00_scope.md R8, 30_encoding.md R85). -/
def FuncSel.wf (c : Config) : FuncSel → Bool
  | .gpio => true
  | .letter n => decide (n.toNat < c.numFuncs)

/-- The admitted operands of an instruction: CFGP as in 40_peripheral_mux.md R111; a handle command has a port that exists
(R87 check 5); a setup command any pin (its range check is the hardware's own, R201); a bus access what R62 admits. -/
def WellFormed (c : Config) : Instr → Bool
  | .cfgp g _ f p => decide (g.toNat < c.numPorts) && f.wf c && p != .minus
  | .osetup _ _ => true
  | .oreset g _ _ => decide (g.toNat < c.numPorts)
  | .owrite g _ _ => decide (g.toNat < c.numPorts)
  | .otoggle g _ => decide (g.toNat < c.numPorts)
  | .otoggleNoirq g _ => decide (g.toNat < c.numPorts)
  | .isetup _ _ => true
  | .ireset g _ _ => decide (g.toNat < c.numPorts)
  | .iread g _ => decide (g.toNat < c.numPorts)
  | .stwDirclr g _ => decide (g < c.numPorts)
  | .stwDirset g _ => decide (g < c.numPorts)
  | .stwOutclr g _ => decide (g < c.numPorts)
  | .stwOutset g _ => decide (g < c.numPorts)
  | .stwOuttgl g _ => decide (g < c.numPorts)
  | .ldwIn g => decide (g < c.numPorts)
  | .ldbPmux g _ => decide (g < c.numPorts)
  | .stbPmux g _ v => decide (g < c.numPorts) && pmuxLegal c.numFuncs v
  | .ldbPincfg g _ => decide (g < c.numPorts)
  | .stbPincfg g _ v => decide (g < c.numPorts) && pincfgLegal v

end Sys2Proof
end

