-- ==== Sys2Proof/Machine/State.lean ====
section
/-! DEFINITION. The state of GPIOMUX (10_state.md), as plain data; the state after reset (70_reset_and_hazards.md R230); the
ways a step stops. -/

namespace Sys2Proof.Machine

/-- A port group (R20 to R26). -/
structure Group where
  /-- `DIR[g]`, R21. -/
  dir : Word
  /-- `OUT[g]`, R22. -/
  out : Word
  /-- `PINCFG[g][b]`, one byte a pin, R23. -/
  pincfg : Vector Byte 32
  /-- `PMUX[g][k]`, one byte a pin pair, R26. -/
  pmux : Vector Byte 16
deriving DecidableEq, Repr

/-- The reset contents of a port group. R230 leaves them OPEN: DESIGN CHOICE, unsafe for a statement about the reset state
alone (log 3). -/
def Group.zero : Group := { dir := 0, out := 0, pincfg := Vector.replicate 32 0, pmux := Vector.replicate 16 0 }

/-- `SEQ` (R33): idle, or executing a command whose next micro-step is the `k`-th. -/
inductive Seq where
  | idle
  | busy (cmd : Instr) (k : Nat)
deriving DecidableEq, Repr

/-- The code of a fatal abort (R38, 60_exceptions.md R200). -/
inductive FatalCode where
  | notOutputPin
  | notInputPin
deriving DecidableEq, Repr

/-- What a command or a read delivers to its issuer (30_encoding.md R80, 10_state.md R41, 43_bus_access.md). -/
inductive Result where
  /-- A handle `(g, m)`: the group and the single-bit mask. -/
  | handle (g : Port) (m : Word)
  /-- IREAD's Boolean. -/
  | level (v : Bool)
  /-- LD.W's word. -/
  | word (r : Word)
  /-- LD.B's byte. -/
  | byte (r : Byte)
deriving DecidableEq, Repr

/-- A result and the number of the context it was delivered to. -/
structure Delivery where
  ctx : Nat
  result : Result
deriving DecidableEq, Repr

/-- A context (R35): its number (0 the main context), what it has still to issue, in its program order, and the tokens of the
critical sections it has open, innermost first (R37). -/
structure Context where
  id : Nat
  todo : List Request
  tokens : List Bool
deriving DecidableEq, Repr

/-- The state of the machine. The first nine fields are the spec's state; the next four the contexts that issue to it
(log 10, log 6); then the parameters, which no step writes (log 2); then the count of free values used (log 5). -/
structure State where
  /-- The port register file (R20); its length is `NUM_PORTS`. -/
  groups : List Group
  /-- `SEQ`, R33. -/
  seq : Seq
  /-- `TOKEN`, R34; between commands a free value (log 17). -/
  token : Bool
  /-- `TMP`, R34; between commands a free value (log 17). -/
  tmp : Byte
  /-- `IE`, R37. -/
  ie : Bool
  /-- `HALT`, R38. -/
  halt : Option FatalCode
  /-- `REFUSED`, R39: set when it holds a reason (R207). -/
  refused : Option RefuseReason
  /-- The context that runs now. -/
  running : Context
  /-- The contexts it preempted, innermost first. -/
  preempted : List Context
  /-- The interrupt contexts that have not begun. -/
  ready : List Context
  /-- The results delivered so far, newest first. -/
  delivered : List Delivery
  /-- `NUM_FUNCS`, 00_scope.md R8. -/
  numFuncs : Nat
  /-- `PORT_BASE`, 20_memory.md R51. -/
  portBase : Nat
  /-- `LOOPBACK_EXACT`, R31. -/
  loopbackExact : Bool
  /-- How many times free values have been drawn: the model's own field (log 5). -/
  draws : Nat
deriving DecidableEq, Repr

/-- The parameters the state carries; `NUM_PORTS` is the number of port groups (R20). -/
def State.config (s : State) : Config :=
  { numPorts := s.groups.length, numFuncs := s.numFuncs, portBase := s.portBase, loopbackExact := s.loopbackExact }

/-- A state after reset, for any parameters, any of the OPEN reset values of R230 (the contents of the groups and `IE`) and any
value of `TOKEN` and `TMP`, unspecified there. `SEQ`, `HALT` and `REFUSED` are the spec's; no context has anything to issue
(R231). -/
def State.launch (c : Config) (groups : List Group) (ie token : Bool) (tmp : Byte) : State :=
  { groups := groups, seq := .idle, token := token, tmp := tmp, ie := ie, halt := none, refused := none,
    running := { id := 0, todo := [], tokens := [] }, preempted := [], ready := [], delivered := [],
    numFuncs := c.numFuncs, portBase := c.portBase, loopbackExact := c.loopbackExact, draws := 0 }

/-- The machine right after reset (R230), with the parameters of `Config.launch`, every register of every group 0 and `IE` 0:
the reset values of vector V42 of 95_test_vectors.md; `TOKEN` and `TMP` 0. DESIGN CHOICE, unsafe for a statement about this
state alone (logs 2, 3, 4). -/
def State.reset : State :=
  State.launch Config.launch (List.replicate Config.launch.numPorts Group.zero) false false 0

/-- The reasons a step stops with a fault. -/
inductive Fault where
  /-- Every instruction and every step, once `HALT` is set: the halt is absorbing, the machine is stuck (R203). Safe. -/
  | halted (code : FatalCode)
  /-- A bus access at an address below the first window: it is no access to GPIOMUX and no rule applies to it (R51; log 9).
  Raised by a step that meets such a request. Safe. -/
  | outsideWindow (addr : Nat)
  /-- A command presented while the sequencer executes another one: it has no step (R36). No step of the machine presents
  one, so only a direct call of a command's meaning raises it (log 12). Safe. -/
  | sequencerBusy
  /-- `SEQ` names a micro-step its command does not have; no run reaches such a state (R33; log 12). Safe. -/
  | noSuchStep
  /-- A context leaves a critical section it has not entered: it has no token to give back, and the collaborator's contract
  says nothing of it (R37; log 11). Raised by a step that meets such a request. Safe. -/
  | noToken
deriving DecidableEq, Repr

/-- The reasons a step is refused. -/
inductive Refusal where
  /-- Every instruction and every step, once `REFUSED` is set: the run has no further step (60_exceptions.md R207). Safe. -/
  | marked (r : RefuseReason)
  /-- An instruction without a meaning yet; raised only by an arm of `exec`. Safe. -/
  | notModelled (mnemonic : String)
deriving DecidableEq, Repr

end Sys2Proof.Machine
end

