-- ==== Sys2Proof/Machine/Operands.lean ====
section
/-! DEFINITION. The operand forms and the bit arithmetic of 00_scope.md R10 to R14 and 30_encoding.md R86, R89, and the fields of
the registers (10_state.md R23 to R27). -/

namespace Sys2Proof.Machine

/-- The mask `m = 1 << b` of a pin (R10). -/
def pinMask (b : Pin) : Word := 1#32 <<< b.toNat

/-- `port_index = pin[15:5]` (R12). -/
def pinPort (pin : PinId) : Port := pin.extractLsb' 5 11

/-- `bit_index = pin[4:0]` (R12). -/
def pinBit (pin : PinId) : Pin := pin.extractLsb' 0 5

/-- `pull_on(p) = (p > 0)` (R13). -/
def pullOn : Pull → Bool
  | .plus => true
  | _ => false

/-- `nibble_insert(old, odd, val)` (R14). -/
def nibbleInsert (old : Byte) (odd : Bool) (val : BitVec 4) : Byte :=
  if odd then (old &&& 0x0F) ||| (val.zeroExtend 8 <<< 4) else (old &&& 0xF0) ||| val.zeroExtend 8

/-- The nibble of a multiplexer byte: the high one for an odd pin (R26). -/
def nibble (v : Byte) (odd : Bool) : BitVec 4 := if odd then v.extractLsb' 4 4 else v.extractLsb' 0 4

/-- The multiplexer byte of a pin, `k = b >> 1` (R27). -/
def pinPair (b : Pin) : Pair := b.extractLsb' 1 4

/-- Which nibble of it, `odd = b[0]` (R27). -/
def pinOdd (b : Pin) : Bool := b.getLsbD 0

/-- The neighbour of a pin, `b ^ 1` (R27). -/
def neighbour (b : Pin) : Pin := b ^^^ 1

/-- `MUXEN` and `PULLEN` (R23). -/
def muxenBit : Byte := 0x01
def pullenBit : Byte := 0x04

/-- A configuration byte with the given multiplex and pull enables (R23). -/
def pincfgByte (mux pull : Bool) : Byte := (if mux then muxenBit else 0x00) ||| (if pull then pullenBit else 0x00)

/-- Whether CFGP routes its pin to a peripheral, `FSEL != 0x00` (R112). -/
def selectsLetter : FuncSel → Bool
  | .gpio => false
  | .letter _ => true

/-- The function number CFGP stores, `n = FSEL - 0x41`, a 4-bit value (R85); for "none" it is not used. -/
def funcNumber : FuncSel → BitVec 4
  | .gpio => 0
  | .letter n => n

/-- The word whose bit `b` is `f b`, for the `n` lowest bits. -/
def packBits : (n : Nat) → (Nat → Bool) → BitVec n
  | 0, _ => 0#0
  | n + 1, f => BitVec.cons (f n) (packBits n f)

/-- `PINCFG[g][b]` of a group. -/
def Group.pincfgAt (grp : Group) (b : Pin) : Byte := grp.pincfg[b.toFin]

/-- `PMUX[g][k]` of a group. -/
def Group.pmuxAt (grp : Group) (k : Pair) : Byte := grp.pmux[k.toFin]

/-- `PINCFG[g][b] <- v`. -/
def Group.setPincfg (grp : Group) (b : Pin) (v : Byte) : Group := { grp with pincfg := grp.pincfg.set b.toNat v b.isLt }

/-- `PMUX[g][k] <- v`. -/
def Group.setPmux (grp : Group) (k : Pair) (v : Byte) : Group := { grp with pmux := grp.pmux.set k.toNat v k.isLt }

/-- The bit `MUXEN` of a pin (R24). -/
def Group.muxen (grp : Group) (b : Pin) : Bool := (grp.pincfgAt b).getLsbD 0

/-- The bit `PULLEN` of a pin (R25). -/
def Group.pullen (grp : Group) (b : Pin) : Bool := (grp.pincfgAt b).getLsbD 2

/-- The multiplexer nibble of a pin (R26, R27). -/
def Group.muxNibble (grp : Group) (b : Pin) : BitVec 4 := nibble (grp.pmuxAt (pinPair b)) (pinOdd b)

/-- The drive of a pin (R30). -/
inductive Drive where
  /-- Routed to the peripheral function `n`. -/
  | periph (n : BitVec 4)
  /-- A plain push-pull output. -/
  | driven (v : Bool)
  /-- A high-impedance input, pull on or off. -/
  | undriven (pull : Bool)
deriving DecidableEq, Repr

/-- `drive(g, b)` (R30). -/
def Group.drive (grp : Group) (b : Pin) : Drive :=
  if grp.muxen b then .periph (grp.muxNibble b)
  else if grp.dir.getLsbD b.toNat then .driven (grp.out.getLsbD b.toNat)
  else .undriven (grp.pullen b)

/-- `level(g, b)` (R31): the latch of a plain output when `LOOPBACK_EXACT`, else the draw. -/
def Group.level (grp : Group) (loopback : Bool) (env : Word) (b : Pin) : Bool :=
  if !grp.muxen b && grp.dir.getLsbD b.toNat && loopback then grp.out.getLsbD b.toNat else env.getLsbD b.toNat

/-- `IN[g]` (R28): the word whose bit `b` is `level(g, b)`. -/
def Group.inWord (grp : Group) (loopback : Bool) (env : Word) : Word :=
  packBits 32 fun b => grp.level loopback env (BitVec.ofNat 5 b)

/-- The numeric code of a fatal abort (60_exceptions.md R200). -/
def FatalCode.code : FatalCode → Nat
  | .notOutputPin => 1
  | .notInputPin => 2

/-- The diagnostic string of a fatal abort (R200). -/
def FatalCode.diagnostic : FatalCode → String
  | .notOutputPin => "Not an output pin"
  | .notInputPin => "Not an input pin"

end Sys2Proof.Machine
end

