-- ==== Sys2Proof/Machine/Flags.lean ====
section
/-! DEFINITION. GPIOMUX has no flags and no condition codes (10_state.md R40): no instruction computes one. Its only status is
`SEQ`, `HALT` and the mark `REFUSED`; this file reads them. -/

namespace Sys2Proof.Machine

/-- What the status lets happen: with `REFUSED` set the run has no further step (60_exceptions.md R207), with `HALT` set no
context and no micro-step has one (R203, 10_state.md R38); otherwise what follows. -/
def State.unlessStopped (s : State) (act : Host.Outcome State Fault Refusal) : Host.Outcome State Fault Refusal :=
  match s.refused with
  | some r => .refused (.marked r)
  | none =>
    match s.halt with
    | some c => .fault (.halted c)
    | none => act

/-- Neither halted nor refused. -/
def State.live (s : State) : Bool := s.halt.isNone && s.refused.isNone

/-- `HALT` as the spec writes it: the code of the fatal abort, if one was raised (R38). -/
def State.haltCode (s : State) : Option Nat := s.halt.map FatalCode.code

/-- `REFUSED` as the spec writes it: one bit (R39). -/
def State.refusedBit (s : State) : Bool := s.refused.isSome

end Sys2Proof.Machine
end

