-- ==== Sys2Proof/Machine/Ops.lean ====
section
/-! DEFINITION. The shared operations: register access (20_memory.md R55 to R64), refusing and halting (60_exceptions.md R202,
R207), the guard of a sequence (10_state.md R37), micro-steps (R33, R36), and the contexts (R35, R206). -/

namespace Sys2Proof.Machine

/-! ## The register file -/

/-- The port group of number `g`. Beyond `NUM_PORTS` it answers a group of zeros, which no admitted access reads (R62). -/
def State.group (s : State) (g : Nat) : Group := s.groups[g]?.getD Group.zero

/-- The address `A(g, OFF)` (R11, R51). -/
def State.addr (s : State) (g off : Nat) : Nat := regAddr s.portBase g off

/-- The effect of a write of `v` on a register of a group (R56 to R61). `IN` is read only (R62). -/
def Group.write (grp : Group) (v : Word) : Reg → Group
  | .dirclr => { grp with dir := grp.dir &&& ~~~v }
  | .dirset => { grp with dir := grp.dir ||| v }
  | .outclr => { grp with out := grp.out &&& ~~~v }
  | .outset => { grp with out := grp.out ||| v }
  | .outtgl => { grp with out := grp.out ^^^ v }
  | .inp => grp
  | .pmux k => grp.setPmux k (lowByte v)
  | .pincfg b => grp.setPincfg b (lowByte v)

/-- A write to a register of group `g`. No other group is touched (R20). -/
def State.writeReg (s : State) (g : Nat) (r : Reg) (v : Word) : State :=
  { s with groups := s.groups.modify g fun grp => grp.write v r }

/-- The value a read of a register of group `g` returns, and the state after it: a read of `IN` uses a fresh draw (R31), a
read of a byte register none; neither changes a register (R55, R61). The write-only registers have no read (R62). -/
def State.readReg (s : State) (g : Nat) : Reg → Option (Word × State)
  | .inp => some ((s.group g).inWord s.loopbackExact (Config.pinLevels s.draws), { s with draws := s.draws + 1 })
  | .pmux k => some (((s.group g).pmuxAt k).zeroExtend 32, s)
  | .pincfg b => some (((s.group g).pincfgAt b).zeroExtend 32, s)
  | _ => none

/-- `MemWrite(addr, n, v)` (R11, R56 to R62). -/
def State.memWrite (s : State) (addr n : Nat) (v : Word) : Except Reject State :=
  match resolve s.config { write := true, size := n, addr := addr, data := v } with
  | .error e => .error e
  | .ok (g, r) => .ok (s.writeReg g r v)

/-- `MemRead(addr, n)` (R11, R55, R61, R62). -/
def State.memRead (s : State) (addr n : Nat) : Except Reject (Word × State) :=
  match resolve s.config { write := false, size := n, addr := addr, data := 0 } with
  | .error e => .error e
  | .ok (g, r) =>
    match s.readReg g r with
    | some res => .ok res
    | none => .error (.refuse .busAccess)

/-! ## Stopping -/

/-- `raise Fatal(code)`: `HALT <- some(code)` and nothing else (60_exceptions.md R202). This is the only exceptional transfer
GPIOMUX has; it saves nothing and there is no return from it (R209). -/
def State.raiseFatal (s : State) (code : FatalCode) : Host.Outcome State Fault Refusal :=
  .next { s with halt := some code }

/-- `refuse(reason)`: `REFUSED <- 1`, no register changes (R207; log 7); an access outside every window is no input of
GPIOMUX (R51; log 9). -/
def State.reject (s : State) : Reject → Host.Outcome State Fault Refusal
  | .refuse r => .next { s with refused := some r }
  | .outside a => .fault (.outsideWindow a)

/-! ## Results and the guard -/

/-- Delivery of a result to the issuing context (30_encoding.md R80). -/
def State.deliver (s : State) : Option Result → State
  | none => s
  | some r => { s with delivered := { ctx := s.running.id, result := r } :: s.delivered }

/-- Micro-step 0 of a guarded sequence: `TOKEN <- IE ; IE <- 0`; the sequencer goes on at micro-step `k` (10_state.md R37). -/
def State.enterGuard (s : State) (cmd : Instr) (k : Nat) : Host.Outcome State Fault Refusal :=
  .next { s with token := s.ie, ie := false, seq := .busy cmd k }

/-- The values of `TOKEN` and `TMP` between commands: free values, fresh for each command that ends (R34; U7 of
93_implementation_defined.md, "any value"; log 17). -/
def State.forget (s : State) : State :=
  { s with token := Config.freeToken s.draws, tmp := Config.freeTmp s.draws, draws := s.draws + 1 }

/-- The last micro-step of a guarded sequence: `IE <- TOKEN ; SEQ <- Idle ; return` (R37), and with the end of the command `TOKEN`
and `TMP` are unspecified (R34). -/
def State.leaveGuard (s : State) (r : Option Result) : Host.Outcome State Fault Refusal :=
  .next ({ s with ie := s.token, seq := .idle }.forget.deliver r)

/-! ## Micro-steps -/

/-- A micro-step that writes a register and leaves the sequencer at `seq` (R33, 20_memory.md R64). -/
def State.writeStep (s : State) (addr n : Nat) (v : Word) (seq : Seq) : Host.Outcome State Fault Refusal :=
  match s.memWrite addr n v with
  | .ok t => .next { t with seq := seq }
  | .error e => s.reject e

/-- A command at its present micro-step (R33, R36): an idle sequencer accepts it, which is the same step as micro-step 0; a
sequencer executing this command goes on at its next micro-step; one executing another has no step for it. -/
def State.sequence (s : State) (cmd : Instr) (micro : Nat → Host.Outcome State Fault Refusal) :
    Host.Outcome State Fault Refusal :=
  s.unlessStopped <|
    match s.seq with
    | .idle => micro 0
    | .busy c k => if c = cmd then micro k else .fault .sequencerBusy

/-- The register that stages the output level `v`: OUTSET or OUTCLR (41_output.md R133). -/
def levelReg (v : Bool) : Reg := if v then .outset else .outclr

/-- The micro-steps of ORESET, and of OSETUP once its pin is checked (R131, R133): guard, level, direction, configuration,
restore. -/
def State.outputStep (s : State) (cmd : Instr) (g : Port) (b : Pin) (v : Bool) (r : Option Result) :
    Nat → Host.Outcome State Fault Refusal
  | 0 => s.enterGuard cmd 1
  | 1 => s.writeStep (s.addr g.toNat (levelReg v).offset) 4 (pinMask b) (.busy cmd 2)
  | 2 => s.writeStep (s.addr g.toNat Reg.dirset.offset) 4 (pinMask b) (.busy cmd 3)
  | 3 => s.writeStep (s.addr g.toNat (Reg.pincfg b).offset) 1 0x00 (.busy cmd 4)
  | 4 => s.leaveGuard r
  | _ => .fault .noSuchStep

/-- The micro-steps of IRESET, and of ISETUP once its pin is checked (42_input.md R161, R163): guard, configuration, direction,
restore. -/
def State.inputStep (s : State) (cmd : Instr) (g : Port) (b : Pin) (p : Pull) (r : Option Result) :
    Nat → Host.Outcome State Fault Refusal
  | 0 => s.enterGuard cmd 1
  | 1 => s.writeStep (s.addr g.toNat (Reg.pincfg b).offset) 1 ((pincfgByte false (pullOn p)).zeroExtend 32) (.busy cmd 2)
  | 2 => s.writeStep (s.addr g.toNat Reg.dirclr.offset) 4 (pinMask b) (.busy cmd 3)
  | 3 => s.leaveGuard r
  | _ => .fault .noSuchStep

/-- The one micro-step of a command that writes one word register with its pin's mask (R136, R138). -/
def State.wordStep (s : State) (g : Port) (b : Pin) (r : Reg) : Nat → Host.Outcome State Fault Refusal
  | 0 => s.writeStep (s.addr g.toNat r.offset) 4 (pinMask b) .idle
  | _ => .fault .noSuchStep

/-- Whether a setup command's pin is out of range (60_exceptions.md R201). -/
def State.badPin (s : State) (pin : PinId) : Bool := decide (s.groups.length ≤ (pinPort pin).toNat)

/-- The handle a setup command returns (41_output.md R131). -/
def handleOf (pin : PinId) : Result := .handle (pinPort pin) (pinMask (pinBit pin))

/-! ## Direct accesses -/

/-- A direct write (43_bus_access.md R190): one atomic step that touches neither `IE`, `TOKEN`, `TMP` nor `SEQ`. -/
def State.busStore (s : State) (g : Nat) (r : Reg) (v : Word) : Host.Outcome State Fault Refusal :=
  s.unlessStopped <|
    match s.memWrite (s.addr g r.offset) r.width v with
    | .ok t => .next t
    | .error e => s.reject e

/-- A direct read, delivering what `out` makes of the value. -/
def State.busLoad (s : State) (g : Nat) (r : Reg) (out : Word → Result) : Host.Outcome State Fault Refusal :=
  s.unlessStopped <|
    match s.memRead (s.addr g r.offset) r.width with
    | .ok (v, t) => .next (t.deliver (some (out v)))
    | .error e => s.reject e

/-! ## Contexts -/

/-- Whether an interrupt context may begin now: only where `IE = 1` (10_state.md R35, 60_exceptions.md R206), and only if one
is ready. -/
def State.preemptible (s : State) : Bool := s.ie && !s.ready.isEmpty

/-- The interrupt context that begins now, with those that stay ready: a free value says which, or none (R206; log 6). -/
def State.arriving (s : State) : Option (Context × List Context) :=
  if s.preemptible then
    match Config.arrival s.draws with
    | none => none
    | some k =>
      match s.ready[k]? with
      | none => none
      | some c => some (c, s.ready.eraseIdx k)
  else none

/-- The state after the question whether an interrupt begins now: where one may, it has used a free value. -/
def State.polled (s : State) : State := if s.preemptible then { s with draws := s.draws + 1 } else s

/-- An interrupt context begins and preempts the running one (R35). `IE` is not changed (log 16). -/
def State.begin (s : State) (c : Context) (rest : List Context) : State :=
  { s with running := c, preempted := s.running :: s.preempted, ready := rest }

/-- The running context has nothing more to issue: the context it preempted goes on (R35); if there is none, the block waits
and nothing changes (70_reset_and_hazards.md R231; log 13). -/
def State.finishContext (s : State) : State :=
  match s.preempted with
  | [] => s
  | c :: rest => { s with running := c, preempted := rest }

/-- The running context has issued its next request. -/
def State.issued (s : State) (rest : List Request) : State := { s with running := { s.running with todo := rest } }

/-- `critical_section_enter()` by a context: it keeps the prior `IE` as a token, and `IE <- 0` (R37; log 11). -/
def State.enterSection (s : State) : State :=
  { s with ie := false, running := { s.running with tokens := s.ie :: s.running.tokens } }

/-- `critical_section_exit(token)` by a context, with the token of its innermost section: `IE <- token` (R37; log 11). -/
def State.exitSection (s : State) : Host.Outcome State Fault Refusal :=
  match s.running.tokens with
  | [] => .fault .noToken
  | t :: ts => .next { s with ie := t, running := { s.running with tokens := ts } }

/-- The host sets its own interrupt-enable bit (R37: it belongs to the host; log 11). -/
def State.hostIe (s : State) (v : Bool) : State := { s with ie := v }

end Sys2Proof.Machine
end

