-- ==== Sys2Proof/Machine/Bus.lean ====
section
/-! DEFINITION. The direct register accesses (43_bus_access.md). -/

namespace Sys2Proof.Machine

/-- ST.W DIRCLR (R180). -/
def execStwDirclr (g : Nat) (v : Word) (s : State) : Host.Outcome State Fault Refusal := s.busStore g .dirclr v

/-- ST.W DIRSET (R181). -/
def execStwDirset (g : Nat) (v : Word) (s : State) : Host.Outcome State Fault Refusal := s.busStore g .dirset v

/-- ST.W OUTCLR (R182). -/
def execStwOutclr (g : Nat) (v : Word) (s : State) : Host.Outcome State Fault Refusal := s.busStore g .outclr v

/-- ST.W OUTSET (R183). -/
def execStwOutset (g : Nat) (v : Word) (s : State) : Host.Outcome State Fault Refusal := s.busStore g .outset v

/-- ST.W OUTTGL (R184). -/
def execStwOuttgl (g : Nat) (v : Word) (s : State) : Host.Outcome State Fault Refusal := s.busStore g .outtgl v

/-- LD.W IN (R185). -/
def execLdwIn (g : Nat) (s : State) : Host.Outcome State Fault Refusal := s.busLoad g .inp .word

/-- LD.B PMUX (R186). -/
def execLdbPmux (g : Nat) (k : Pair) (s : State) : Host.Outcome State Fault Refusal :=
  s.busLoad g (.pmux k) fun v => .byte (lowByte v)

/-- ST.B PMUX (R187). -/
def execStbPmux (g : Nat) (k : Pair) (v : Byte) (s : State) : Host.Outcome State Fault Refusal :=
  s.busStore g (.pmux k) (v.zeroExtend 32)

/-- LD.B PINCFG (R188). -/
def execLdbPincfg (g : Nat) (b : Pin) (s : State) : Host.Outcome State Fault Refusal :=
  s.busLoad g (.pincfg b) fun v => .byte (lowByte v)

/-- ST.B PINCFG (R189). -/
def execStbPincfg (g : Nat) (b : Pin) (v : Byte) (s : State) : Host.Outcome State Fault Refusal :=
  s.busStore g (.pincfg b) (v.zeroExtend 32)

end Sys2Proof.Machine
end

