-- ==== Sys2Proof/Machine/Input.lean ====
section
/-! DEFINITION. The input handle commands (42_input.md). -/

namespace Sys2Proof.Machine

/-- ISETUP (R161, R162): the pin check is made at micro-step 0 before anything else; then IRESET's steps, and the handle. -/
def execIsetup (pin : PinId) (p : Pull) (s : State) : Host.Outcome State Fault Refusal :=
  s.sequence (.isetup pin p) fun k =>
    if k = 0 ∧ s.badPin pin = true then s.raiseFatal .notInputPin
    else s.inputStep (.isetup pin p) (pinPort pin) (pinBit pin) p (some (handleOf pin)) k

/-- IRESET (R163 to R165). -/
def execIreset (g : Port) (b : Pin) (p : Pull) (s : State) : Host.Outcome State Fault Refusal :=
  s.sequence (.ireset g b p) (s.inputStep (.ireset g b p) g b p none)

/-- IREAD's micro-step (R166): the input word, tested with the pin's mask. -/
def State.ireadStep (s : State) (g : Port) (b : Pin) : Nat → Host.Outcome State Fault Refusal
  | 0 =>
    match s.memRead (s.addr g.toNat Reg.inp.offset) 4 with
    | .ok (v, t) => .next ({ t with seq := .idle }.deliver (some (.level (v &&& pinMask b != 0))))
    | .error e => s.reject e
  | _ => .fault .noSuchStep

/-- IREAD (R166, R167): one micro-step, not guarded; no register is written. -/
def execIread (g : Port) (b : Pin) (s : State) : Host.Outcome State Fault Refusal :=
  s.sequence (.iread g b) (s.ireadStep g b)

end Sys2Proof.Machine
end

