-- ==== Sys2Proof/Machine/Mux.lean ====
section
/-! DEFINITION. The peripheral multiplexer command (40_peripheral_mux.md). -/

namespace Sys2Proof.Machine

/-- CFGP's micro-steps (R112): 0 guard, and on to 3 for "none"; 1 `TMP <- PMUX[g][b >> 1]`; 2 the byte with only this pin's
nibble changed; 3 the configuration byte; 4 restore. -/
def State.cfgpStep (s : State) (cmd : Instr) (g : Port) (b : Pin) (f : FuncSel) (p : Pull) :
    Nat → Host.Outcome State Fault Refusal
  | 0 => s.enterGuard cmd (if selectsLetter f then 1 else 3)
  | 1 =>
    match s.memRead (s.addr g.toNat (Reg.pmux (pinPair b)).offset) 1 with
    | .ok (v, t) => .next { t with tmp := lowByte v, seq := .busy cmd 2 }
    | .error e => s.reject e
  | 2 =>
    s.writeStep (s.addr g.toNat (Reg.pmux (pinPair b)).offset) 1
      ((nibbleInsert s.tmp (pinOdd b) (funcNumber f)).zeroExtend 32) (.busy cmd 3)
  | 3 =>
    s.writeStep (s.addr g.toNat (Reg.pincfg b).offset) 1
      ((pincfgByte (selectsLetter f) (pullOn p)).zeroExtend 32) (.busy cmd 4)
  | 4 => s.leaveGuard none
  | _ => .fault .noSuchStep

/-- CFGP (R112 to R117). -/
def execCfgp (g : Port) (b : Pin) (f : FuncSel) (p : Pull) (s : State) : Host.Outcome State Fault Refusal :=
  s.sequence (.cfgp g b f p) (s.cfgpStep (.cfgp g b f p) g b f p)

end Sys2Proof.Machine
end

