-- ==== Sys2Proof/Machine/Output.lean ====
section
/-! DEFINITION. The output handle commands (41_output.md). -/

namespace Sys2Proof.Machine

/-- OSETUP (R131, R132): the pin check is made at micro-step 0 before anything else; then ORESET's steps, and the handle. -/
def execOsetup (pin : PinId) (v : Bool) (s : State) : Host.Outcome State Fault Refusal :=
  s.sequence (.osetup pin v) fun k =>
    if k = 0 ∧ s.badPin pin = true then s.raiseFatal .notOutputPin
    else s.outputStep (.osetup pin v) (pinPort pin) (pinBit pin) v (some (handleOf pin)) k

/-- ORESET (R133, R135). -/
def execOreset (g : Port) (b : Pin) (v : Bool) (s : State) : Host.Outcome State Fault Refusal :=
  s.sequence (.oreset g b v) (s.outputStep (.oreset g b v) g b v none)

/-- OWRITE (R136, R137): one micro-step, not guarded. -/
def execOwrite (g : Port) (b : Pin) (v : Bool) (s : State) : Host.Outcome State Fault Refusal :=
  s.sequence (.owrite g b v) (s.wordStep g b (levelReg v))

/-- OTOGGLE (R138, R140): one micro-step, not guarded. -/
def execOtoggle (g : Port) (b : Pin) (s : State) : Host.Outcome State Fault Refusal :=
  s.sequence (.otoggle g b) (s.wordStep g b .outtgl)

/-- OTOGGLE.NOIRQ (R139): OTOGGLE's effect under another opcode. -/
def execOtoggleNoirq (g : Port) (b : Pin) (s : State) : Host.Outcome State Fault Refusal :=
  s.sequence (.otoggleNoirq g b) (s.wordStep g b .outtgl)

end Sys2Proof.Machine
end

