-- ==== Sys2Proof/Machine/Dispatch.lean ====
section
/-! DEFINITION. The dispatch of an instruction to its meaning. For a command it is ONE micro-step, the one `SEQ` names. -/

namespace Sys2Proof.Machine

def exec (i : Instr) (s : State) : Host.Outcome State Fault Refusal :=
  match i with
  | .cfgp g b f p => Sys2Proof.Machine.execCfgp g b f p s
  | .osetup pin v => Sys2Proof.Machine.execOsetup pin v s
  | .oreset g b v => Sys2Proof.Machine.execOreset g b v s
  | .owrite g b v => Sys2Proof.Machine.execOwrite g b v s
  | .otoggle g b => Sys2Proof.Machine.execOtoggle g b s
  | .otoggleNoirq g b => Sys2Proof.Machine.execOtoggleNoirq g b s
  | .isetup pin p => Sys2Proof.Machine.execIsetup pin p s
  | .ireset g b p => Sys2Proof.Machine.execIreset g b p s
  | .iread g b => Sys2Proof.Machine.execIread g b s
  | .stwDirclr g v => Sys2Proof.Machine.execStwDirclr g v s
  | .stwDirset g v => Sys2Proof.Machine.execStwDirset g v s
  | .stwOutclr g v => Sys2Proof.Machine.execStwOutclr g v s
  | .stwOutset g v => Sys2Proof.Machine.execStwOutset g v s
  | .stwOuttgl g v => Sys2Proof.Machine.execStwOuttgl g v s
  | .ldwIn g => Sys2Proof.Machine.execLdwIn g s
  | .ldbPmux g k => Sys2Proof.Machine.execLdbPmux g k s
  | .stbPmux g k v => Sys2Proof.Machine.execStbPmux g k v s
  | .ldbPincfg g b => Sys2Proof.Machine.execLdbPincfg g b s
  | .stbPincfg g b v => Sys2Proof.Machine.execStbPincfg g b v s

end Sys2Proof.Machine
end

