-- ==== Sys2Proof/Machine/Issue.lean ====
section
/-! DEFINITION. What a step does between interrupts: the next micro-step of the command in execution, or the running context's
next request (10_state.md R35, R36; 30_encoding.md R80, R87). -/

namespace Sys2Proof.Machine

/-- The request `r` of the running context, which has `rest` to issue after it. A refused word or access is not accepted: it
stays where it is and `REFUSED` is set (R87, R207). -/
def State.issue (s : State) (r : Request) (rest : List Request) : Host.Outcome State Fault Refusal :=
  match r with
  | .enter => .next (s.issued rest).enterSection
  | .exit => (s.issued rest).exitSection
  | .setIe v => .next ((s.issued rest).hostIe v)
  | .command w =>
    match decodeWord s.config w with
    | .error e => s.reject (.refuse e)
    | .ok i => exec i (s.issued rest)
  | .bus a =>
    match decodeAccess s.config a with
    | .error e => s.reject e
    | .ok i => exec i (s.issued rest)

/-- One step of the running context: the next micro-step of the command in execution, since its issuer takes no step until it
completes (R80); with an idle sequencer the context's next request; with nothing to issue, the end of the context. -/
def State.proceed (s : State) : Host.Outcome State Fault Refusal :=
  match s.seq with
  | .busy cmd _ => exec cmd s
  | .idle =>
    match s.running.todo with
    | r :: rest => s.issue r rest
    | [] => .next s.finishContext

/-- One step of the machine: nothing once it is refused or halted; an interrupt context that begins here (R206); else one
step of the running context. -/
def State.advance (s : State) : Host.Outcome State Fault Refusal :=
  s.unlessStopped <|
    match s.arriving with
    | some (c, rest) => .next (s.polled.begin c rest)
    | none => s.polled.proceed

end Sys2Proof.Machine
end

