-- ==== Sys2Proof/Machine/Step.lean ====
section
/-! DEFINITION. The step of the machine, and how the host places one instruction as the next (log 14). -/

namespace Sys2Proof.Machine

/-- One step: an interrupt context begins, or the running context takes one indivisible step (10_state.md R36). -/
def step (s : State) : Host.Outcome State Fault Refusal := s.advance

/-- The state in which the next step runs the instruction with these table bits: it is the next request of the running
context, the sequencer is idle, the machine neither halted nor refused, and no interrupt context is ready to begin first. -/
def State.withFetchWord (s : State) (nbits w : Nat) : State :=
  { s with
    seq := .idle, halt := none, refused := none, ready := [],
    running := { s.running with todo := tableRequest s.config nbits w :: s.running.todo } }

end Sys2Proof.Machine
end

