-- ==== Sys2Proof/Machine/Run.lean ====
section
/-! DEFINITION. A command over its micro-steps (70_reset_and_hazards.md R241), for claims about whole commands. -/

namespace Sys2Proof.Machine

/-- The number of micro-steps of an instruction (R241, conflict C11). -/
def microSteps : Instr → Nat
  | .cfgp _ _ f _ => if selectsLetter f then 5 else 3
  | .osetup .. | .oreset .. => 5
  | .isetup .. | .ireset .. => 4
  | _ => 1

/-- The index of the last micro-step of a command (R112, R131, R133, R161, R163). -/
def lastMicroStep : Instr → Nat
  | .cfgp .. | .osetup .. | .oreset .. => 4
  | .isetup .. | .ireset .. => 3
  | _ => 0

/-- `n` micro-steps of the command `i`, one after the other with no step of another context between them. -/
def runMicro (i : Instr) : Nat → State → Host.Outcome State Fault Refusal
  | 0, s => .next s
  | n + 1, s =>
    match exec i s with
    | .next t => runMicro i n t
    | .fault f => .fault f
    | .refused r => .refused r

/-- Whether a request is a command or an access. The others act on the host's interrupt-enable bit alone (10_state.md R37). -/
def addressesBlock : Request → Bool
  | .command _ => true
  | .bus _ => true
  | .enter => false
  | .exit => false
  | .setIe _ => false

/-- A context has issued its last command or access (R240). -/
def Context.issuedLast (c : Context) : Bool := c.todo.all fun r => !addressesBlock r

/-- The group an instruction acts on. -/
def groupOf : Instr → Nat
  | .cfgp g _ _ _ => g.toNat
  | .osetup pin _ => (pinPort pin).toNat
  | .oreset g _ _ => g.toNat
  | .owrite g _ _ => g.toNat
  | .otoggle g _ => g.toNat
  | .otoggleNoirq g _ => g.toNat
  | .isetup pin _ => (pinPort pin).toNat
  | .ireset g _ _ => g.toNat
  | .iread g _ => g.toNat
  | .stwDirclr g _ => g
  | .stwDirset g _ => g
  | .stwOutclr g _ => g
  | .stwOutset g _ => g
  | .stwOuttgl g _ => g
  | .ldwIn g => g
  | .ldbPmux g _ => g
  | .stbPmux g _ _ => g
  | .ldbPincfg g _ => g
  | .stbPincfg g _ _ => g

end Sys2Proof.Machine
end

