-- ==== Sys2Proof/Safety.lean ====
section
/-! DEFINITION. What counts as a good run (70_reset_and_hazards.md R240), and the invariant of the machine. -/

namespace Sys2Proof.Machine

/-- The legal contents of a port group (10_state.md R23, R26). -/
structure Group.Legal (numFuncs : Nat) (grp : Group) : Prop where
  pincfg : ∀ b : Pin, pincfgLegal (grp.pincfgAt b) = true
  pmux : ∀ k : Pair, pmuxLegal numFuncs (grp.pmuxAt k) = true

/-- Every port group holds legal contents. -/
def State.RegsLegal (s : State) : Prop := ∀ grp ∈ s.groups, grp.Legal s.numFuncs

/-- What `SEQ` may say (R33, R36, R37, 20_memory.md R64): a command in execution is well formed and acts on a group that
exists, its next micro-step is one it has, it is guarded (`IE = 0`), and CFGP has the multiplexer byte in `TMP` when it is about
to write it, and is past the multiplexer byte from the start when it selects no function. -/
def State.SeqLegal (s : State) : Prop :=
  match s.seq with
  | .idle => True
  | .busy cmd k =>
    (1 ≤ k ∧ k ≤ lastMicroStep cmd) ∧ s.ie = false ∧ WellFormed s.config cmd = true ∧ groupOf cmd < s.groups.length ∧
      (∀ g b f p, cmd = .cfgp g b f p →
        (selectsLetter f = false → 3 ≤ k) ∧
        (selectsLetter f = true → k = 2 → s.tmp = (s.group g.toNat).pmuxAt (pinPair b)))

/-- The invariant of the machine: admitted parameters, legal registers, a legal sequencer, and a machine that has stopped
stands with an idle sequencer (a refused word is not accepted, R87; a fatal abort completes no command, R202). -/
structure State.Inv (s : State) : Prop where
  config : s.config.wf = true
  regs : s.RegsLegal
  seq : s.SeqLegal
  stopped : s.live = false → s.seq = .idle

/-- The end of a good run (R240): every context has issued its last command or access and, `SEQ` being idle, received its
result, with `HALT` and `REFUSED` clear. A context still waiting for an interrupt does not count: R240 says nothing about it. -/
def State.goodEnd (s : State) : Bool :=
  s.seq == .idle && s.live && s.running.issuedLast && s.preempted.all Context.issuedLast

/-- A failed run: halted or refused (R240). -/
def State.failed (s : State) : Bool := !s.live

end Sys2Proof.Machine
end

