-- ==== Sys2Proof/Certificates/Slice0/Obligations.lean ====
section
/-! DEFINITION. The statements for the provers, from the numbered rules of spec/. -/

section Statements

open Sys2Proof Sys2Proof.Machine

/-! ## Words the statements share -/

/-- An instruction whose meaning may be a next state: neither halted nor refused, and the sequencer idle (R36). -/
def Sys2Proof.Claims.Accepting (s : State) : Prop := s.live = true ∧ s.seq = .idle

/-- The next step is the running context's: no interrupt context is ready to begin while `IE = 1`. -/
def Sys2Proof.Claims.Undisturbed (s : State) : Prop := s.preemptible = false

/-- `s` with group `g` replaced by what `f` makes of it, and nothing else changed. -/
def Sys2Proof.Claims.inGroup (s : State) (g : Nat) (f : Group → Group) : State := { s with groups := s.groups.modify g f }

/-- The staged output latch: bit `b` at level `v`. -/
def Sys2Proof.Claims.stage (grp : Group) (b : Pin) (v : Bool) : Group :=
  { grp with out := if v then grp.out ||| pinMask b else grp.out &&& ~~~(pinMask b) }

/-- The first check of R87 that a command word fails, from the numbers of R81 to R88 and the table of R88. -/
def Sys2Proof.Claims.firstFailing (c : Config) (w : Word) : Option RefuseReason :=
  let op := w.toNat / 2 ^ 28
  let fsel := w.toNat / 2 ^ 16 % 256
  match (if op = 0 then none else commandRows[op - 1]?) with
  | none => some .reservedOpcode
  | some row =>
    if w.toNat &&& row.mask ≠ row.fixed then some .reservedField
    else if (op = 7 ∨ op = 8) ∧ w.toNat / 2 ^ 26 % 4 = 2 then some .reservedPull
    else if op = 1 ∧ ¬(fsel = 0 ∨ (0x41 ≤ fsel ∧ fsel ≤ 0x40 + c.numFuncs)) then some .badFunction
    else if op ≠ 2 ∧ op ≠ 7 ∧ ¬w.toNat / 2 ^ 5 % 2048 < c.numPorts then some .badHandle
    else none

/-- The accesses R52, R54, R61 and R62 admit, by direction, width, offset and value. -/
def Sys2Proof.Claims.AdmittedAt (c : Config) (a : Access) (g off : Nat) : Prop :=
  g < c.numPorts ∧
    ((a.write = true ∧ a.size = 4 ∧ (off = 0x04 ∨ off = 0x08 ∨ off = 0x14 ∨ off = 0x18 ∨ off = 0x1C)) ∨
      (a.write = false ∧ a.size = 4 ∧ off = 0x20) ∨
      (a.size = 1 ∧ 0x30 ≤ off ∧ off ≤ 0x3F ∧
        (a.write = true → a.data.toNat % 16 < c.numFuncs ∧ a.data.toNat / 16 % 16 < c.numFuncs)) ∨
      (a.size = 1 ∧ 0x40 ≤ off ∧ off ≤ 0x5F ∧
        (a.write = true → a.data.toNat % 256 = 0 ∨ a.data.toNat % 256 = 1 ∨ a.data.toNat % 256 = 4 ∨
          a.data.toNat % 256 = 5)))

/-- The group and pin a command acts on; none for a direct access. -/
def Sys2Proof.Claims.target : Instr → Option (Nat × Pin)
  | .cfgp g b _ _ => some (g.toNat, b)
  | .osetup pin _ => some ((pinPort pin).toNat, pinBit pin)
  | .oreset g b _ => some (g.toNat, b)
  | .owrite g b _ => some (g.toNat, b)
  | .otoggle g b => some (g.toNat, b)
  | .otoggleNoirq g b => some (g.toNat, b)
  | .isetup pin _ => some ((pinPort pin).toNat, pinBit pin)
  | .ireset g b _ => some (g.toNat, b)
  | .iread g b => some (g.toNat, b)
  | _ => none

/-- Whether an instruction may write `DIR`, `OUT`, `PINCFG`, `PMUX` (R112, R130, R136, R138, R139,
R160, R166, R180 to R189). -/
def Sys2Proof.Claims.mayWriteDir : Instr → Bool
  | .osetup .. | .oreset .. | .isetup .. | .ireset .. | .stwDirclr .. | .stwDirset .. => true
  | _ => false
def Sys2Proof.Claims.mayWriteOut : Instr → Bool
  | .osetup .. | .oreset .. | .owrite .. | .otoggle .. | .otoggleNoirq .. | .stwOutclr .. | .stwOutset .. | .stwOuttgl .. => true
  | _ => false
def Sys2Proof.Claims.mayWritePincfg : Instr → Bool
  | .cfgp .. | .osetup .. | .oreset .. | .isetup .. | .ireset .. | .stbPincfg .. => true
  | _ => false
def Sys2Proof.Claims.mayWritePmux : Instr → Bool
  | .cfgp .. | .stbPmux .. => true
  | _ => false

/-- The guarded commands (R115, R131, R133, R161, R163). -/
def Sys2Proof.Claims.guarded : Instr → Bool
  | .cfgp .. | .osetup .. | .oreset .. | .isetup .. | .ireset .. => true
  | _ => false

/-- What the last micro-step of a guarded command makes of `t`: `IE` as it was in `s`, where the command began, `SEQ` idle (R37),
and `TOKEN` and `TMP`, unspecified between commands, each a free value (R34; log 17). -/
def Sys2Proof.Claims.ended (s t : State) : State :=
  { t with
    ie := s.ie, seq := .idle, token := Config.freeToken s.draws, tmp := Config.freeTmp s.draws, draws := s.draws + 1 }

/-- A register written as a word of set, clear or toggle bits (R29). -/
def Sys2Proof.Claims.BitRegister (r : Reg) : Prop := r = .dirclr ∨ r = .dirset ∨ r = .outclr ∨ r = .outset ∨ r = .outtgl

open Sys2Proof.Claims

/-! ## Encoding -/

/-- R81 to R92: decoding what the encoder makes of a well-formed instruction gives it back, every operand at every value. -/
def Obligations.DecodeOfEncode : Prop :=
  ∀ (c : Config) (i : Instr), WellFormed c i = true → decodeRequest c (encode c i) = some (.ok i)

/-- R87, R62: the decoder answers only well-formed instructions. -/
def Obligations.DecodedIsWellFormed : Prop :=
  ∀ (c : Config) (r : Request) (i : Instr), c.numFuncs ≤ 16 → decodeRequest c r = some (.ok i) → WellFormed c i = true

/-- R81, R88: an accepted command word is the encoding of what it decodes to; no two words mean one command. -/
def Obligations.EncodeOfDecodedWord : Prop :=
  ∀ (c : Config) (w : Word) (i : Instr), c.numFuncs ≤ 16 → decodeWord c w = .ok i → encode c i = .command w

/-- R87: the checks of decode, in their order; the first that fails refuses the word, with nothing accepted and nothing
written; a word that fails none decodes. -/
def Obligations.DecodeChecksInOrder : Prop :=
  (∀ (c : Config) (w : Word),
    match firstFailing c w with
    | some r => decodeWord c w = .error r
    | none => ∃ i, decodeWord c w = .ok i) ∧
  ∀ (s : State) (w : Word) (rest : List Request) (r : RefuseReason), Accepting s → Undisturbed s →
    s.running.todo = .command w :: rest → firstFailing s.config w = some r →
    step s = .next { s with refused := some r }

/-- R62 (with R51, R52, R54): a bus access in a group's window that is none of the admitted ones is refused BUS_ACCESS and
changes no register; an admitted one decodes. -/
def Obligations.BusAccessRefusals : Prop :=
  ∀ (s : State) (a : Access) (rest : List Request) (g off : Nat), Accepting s → Undisturbed s →
    s.running.todo = .bus a :: rest → off < groupStride → a.addr = regAddr s.portBase g off →
    (AdmittedAt s.config a g off → ∃ i, decodeAccess s.config a = .ok i ∧ groupOf i = g) ∧
    (¬AdmittedAt s.config a g off → step s = .next { s with refused := some .busAccess })

/-- R88, R92: no bits satisfy two rows of the table. -/
def Obligations.TableRowsDisjoint : Prop :=
  commandRows.Pairwise (fun a b => a.disjoint b = true) ∧ accessRows.Pairwise (fun a b => a.disjoint b = true)

/-- Three command words of 95_test_vectors.md decode as it says, and two descriptors of R92 name their access. That the last two are
read as accesses to group 0 with datum 0 is the model's choice (log 14): a descriptor has no bits for either. -/
def Obligations.SpecWordsDecode : Prop :=
  decodeWord Config.launch 0x14430005 = .ok (.cfgp 0 5 (.letter 2) .plus) ∧
  decodeWord Config.launch 0x22000005 = .ok (.osetup 5 true) ∧
  decodeWord Config.launch 0x8C00005F = .ok (.ireset 2 31 .minus) ∧
  decodeTableWord 16 0x19C = some (.stwOuttgl 0 0) ∧
  decodeTableWord 16 0x145 = some (.stbPincfg 0 5 0)

/-- R12, R86: the decomposition of a pin identifier by 32, and the handle of a setup word is its own PIN field. -/
def Obligations.PinDecomposition : Prop :=
  ∀ pin : PinId, (pinPort pin).toNat = pin.toNat / 32 ∧ (pinBit pin).toNat = pin.toNat % 32 ∧
    pinOf (pinPort pin) (pinBit pin) = pin

/-- R14: nibble_insert changes only the nibble selected. -/
def Obligations.NibbleInsertChangesOneNibble : Prop :=
  ∀ (old : Byte) (odd : Bool) (val : BitVec 4),
    nibble (nibbleInsert old odd val) odd = val ∧ nibble (nibbleInsert old odd val) (!odd) = nibble old (!odd) ∧
    nibbleInsert old odd val =
      if odd = false then (old &&& 0xF0) ||| val.zeroExtend 8 else (old &&& 0x0F) ||| (val.zeroExtend 8 <<< 4)

/-! ## Direct accesses -/

/-- R56, R57: DIRCLR and DIRSET. -/
def Obligations.DirectionStores : Prop :=
  ∀ (s : State) (g : Nat) (v : Word), s.live = true → g < s.groups.length →
    (∃ t, s.memWrite (regAddr s.portBase g 0x04) 4 v = .ok t ∧ exec (.stwDirclr g v) s = .next t ∧
      t = inGroup s g (fun grp => { grp with dir := grp.dir &&& ~~~v }) ∧
      ∀ n, n < 32 → (t.group g).dir.getLsbD n = if v.getLsbD n then false else (s.group g).dir.getLsbD n) ∧
    (∃ t, s.memWrite (regAddr s.portBase g 0x08) 4 v = .ok t ∧ exec (.stwDirset g v) s = .next t ∧
      t = inGroup s g (fun grp => { grp with dir := grp.dir ||| v }) ∧
      ∀ n, n < 32 → (t.group g).dir.getLsbD n = if v.getLsbD n then true else (s.group g).dir.getLsbD n)

/-- R58, R59, R60: OUTCLR, OUTSET and OUTTGL. -/
def Obligations.OutputStores : Prop :=
  ∀ (s : State) (g : Nat) (v : Word), s.live = true → g < s.groups.length →
    (∃ t, s.memWrite (regAddr s.portBase g 0x14) 4 v = .ok t ∧ exec (.stwOutclr g v) s = .next t ∧
      t = inGroup s g (fun grp => { grp with out := grp.out &&& ~~~v }) ∧
      ∀ n, n < 32 → (t.group g).out.getLsbD n = if v.getLsbD n then false else (s.group g).out.getLsbD n) ∧
    (∃ t, s.memWrite (regAddr s.portBase g 0x18) 4 v = .ok t ∧ exec (.stwOutset g v) s = .next t ∧
      t = inGroup s g (fun grp => { grp with out := grp.out ||| v }) ∧
      ∀ n, n < 32 → (t.group g).out.getLsbD n = if v.getLsbD n then true else (s.group g).out.getLsbD n) ∧
    (∃ t, s.memWrite (regAddr s.portBase g 0x1C) 4 v = .ok t ∧ exec (.stwOuttgl g v) s = .next t ∧
      t = inGroup s g (fun grp => { grp with out := grp.out ^^^ v }) ∧
      ∀ n, n < 32 → (t.group g).out.getLsbD n = if v.getLsbD n then !(s.group g).out.getLsbD n else (s.group g).out.getLsbD n)

/-- R61: the multiplexer and configuration bytes are read and written whole, and a write touches no other byte. -/
def Obligations.ByteRegisterAccesses : Prop :=
  ∀ (s : State) (g : Nat) (k : Pair) (b : Pin) (v : Byte), s.live = true → g < s.groups.length →
    s.memRead (regAddr s.portBase g (0x30 + k.toNat)) 1 = .ok (((s.group g).pmuxAt k).zeroExtend 32, s) ∧
    exec (.ldbPmux g k) s =
      .next { s with delivered := { ctx := s.running.id, result := .byte ((s.group g).pmuxAt k) } :: s.delivered } ∧
    s.memRead (regAddr s.portBase g (0x40 + b.toNat)) 1 = .ok (((s.group g).pincfgAt b).zeroExtend 32, s) ∧
    exec (.ldbPincfg g b) s =
      .next { s with delivered := { ctx := s.running.id, result := .byte ((s.group g).pincfgAt b) } :: s.delivered } ∧
    (v.toNat % 16 < s.numFuncs → v.toNat / 16 < s.numFuncs →
      ∃ t, s.memWrite (regAddr s.portBase g (0x30 + k.toNat)) 1 (v.zeroExtend 32) = .ok t ∧
        exec (.stbPmux g k v) s = .next t ∧ t = inGroup s g (fun grp => grp.setPmux k v) ∧
        ∀ k', (t.group g).pmuxAt k' = if k' = k then v else (s.group g).pmuxAt k') ∧
    ((v = 0x00 ∨ v = 0x01 ∨ v = 0x04 ∨ v = 0x05) →
      ∃ t, s.memWrite (regAddr s.portBase g (0x40 + b.toNat)) 1 (v.zeroExtend 32) = .ok t ∧
        exec (.stbPincfg g b v) s = .next t ∧ t = inGroup s g (fun grp => grp.setPincfg b v) ∧
        ∀ b', (t.group g).pincfgAt b' = if b' = b then v else (s.group g).pincfgAt b')

/-- R28, R55 (with R31): a read of IN delivers the word whose bit `b` is the level of pin `b`, and changes no register; what
does not come from a plain output's latch is the free value of this read, whatever it is. IN is not written: a write of it is
refused. -/
def Obligations.LoadInputWord : Prop :=
  ∀ (s : State) (g : Nat), s.live = true → g < s.groups.length →
    (∀ (n : Nat) (v : Word), s.memWrite (regAddr s.portBase g 0x20) n v = .error (.refuse .busAccess)) ∧
    ∃ r : Word,
      exec (.ldwIn g) s =
        .next { s with delivered := { ctx := s.running.id, result := .word r } :: s.delivered, draws := s.draws + 1 } ∧
      ∀ b : Pin, r.getLsbD b.toNat =
        if ((s.group g).pincfgAt b).getLsbD 0 = false ∧ (s.group g).dir.getLsbD b.toNat = true ∧ s.loopbackExact = true
        then (s.group g).out.getLsbD b.toNat else (Config.pinLevels s.draws).getLsbD b.toNat

/-- R62: a direct access to a group that does not exist, a multiplexer byte with a nibble at or above NUM_FUNCS and a
configuration byte with a reserved bit are refused, and nothing else changes. -/
def Obligations.DirectAccessRefused : Prop :=
  ∀ (s : State) (g : Nat) (k : Pair) (b : Pin) (w : Word) (v : Byte), s.live = true →
    (s.groups.length ≤ g → ∀ i ∈ [Instr.stwDirclr g w, .stwDirset g w, .stwOutclr g w, .stwOutset g w, .stwOuttgl g w,
      .ldwIn g, .ldbPmux g k, .stbPmux g k v, .ldbPincfg g b, .stbPincfg g b v],
      exec i s = .next { s with refused := some .busAccess }) ∧
    (s.numFuncs ≤ v.toNat % 16 ∨ s.numFuncs ≤ v.toNat / 16 →
      exec (.stbPmux g k v) s = .next { s with refused := some .busAccess }) ∧
    (v &&& 0xFA ≠ 0 → exec (.stbPincfg g b v) s = .next { s with refused := some .busAccess })

/-! ## Commands of one micro-step -/

/-- R136: OWRITE sets or clears bit `b` of the latch and changes nothing else. -/
def Obligations.OwriteEffect : Prop :=
  ∀ (s : State) (g : Port) (b : Pin) (v : Bool), Accepting s → g.toNat < s.groups.length →
    ∃ t, exec (.owrite g b v) s = .next t ∧ t = inGroup s g.toNat (fun grp => stage grp b v) ∧
      ∀ n, n < 32 → (t.group g.toNat).out.getLsbD n = if n = b.toNat then v else (s.group g.toNat).out.getLsbD n

/-- R138, R139: OTOGGLE and OTOGGLE.NOIRQ flip bit `b` of the latch and change nothing else. -/
def Obligations.OtoggleEffect : Prop :=
  ∀ (s : State) (g : Port) (b : Pin), Accepting s → g.toNat < s.groups.length →
    ∃ t, exec (.otoggle g b) s = .next t ∧ exec (.otoggleNoirq g b) s = .next t ∧
      t = inGroup s g.toNat (fun grp => { grp with out := grp.out ^^^ pinMask b }) ∧
      ∀ n, n < 32 → (t.group g.toNat).out.getLsbD n =
        if n = b.toNat then !(s.group g.toNat).out.getLsbD n else (s.group g.toNat).out.getLsbD n

/-- R166 (with R31): IREAD delivers the level of its pin as a Boolean and writes no register. -/
def Obligations.IreadEffect : Prop :=
  ∀ (s : State) (g : Port) (b : Pin), Accepting s → g.toNat < s.groups.length →
    let v : Bool :=
      if ((s.group g.toNat).pincfgAt b).getLsbD 0 = false ∧ (s.group g.toNat).dir.getLsbD b.toNat = true ∧
          s.loopbackExact = true
      then (s.group g.toNat).out.getLsbD b.toNat else (Config.pinLevels s.draws).getLsbD b.toNat
    exec (.iread g b) s =
      .next { s with delivered := { ctx := s.running.id, result := .level v } :: s.delivered, draws := s.draws + 1 }

/-! ## Guarded commands, micro-step by micro-step -/

/-- R133: the five micro-steps of ORESET. `TOKEN` and
`TMP` are free values at its end. -/
def Obligations.OresetMicroSteps : Prop :=
  ∀ (s : State) (g : Port) (b : Pin) (v : Bool), Accepting s → g.toNat < s.groups.length →
    let i := Instr.oreset g b v
    let s1 := { s with token := s.ie, ie := false, seq := .busy i 1 }
    let s2 := { inGroup s1 g.toNat (fun grp => stage grp b v) with seq := .busy i 2 }
    let s3 := { inGroup s2 g.toNat (fun grp => { grp with dir := grp.dir ||| pinMask b }) with seq := .busy i 3 }
    let s4 := { inGroup s3 g.toNat (fun grp => grp.setPincfg b 0x00) with seq := .busy i 4 }
    exec i s = .next s1 ∧ exec i s1 = .next s2 ∧ exec i s2 = .next s3 ∧ exec i s3 = .next s4 ∧
      exec i s4 = .next (ended s s4)

/-- R131: the five micro-steps of OSETUP for a pin that exists; the handle is delivered. `TOKEN` and
`TMP` are free values at its end. -/
def Obligations.OsetupMicroSteps : Prop :=
  ∀ (s : State) (pin : PinId) (v : Bool), Accepting s → pin.toNat / 32 < s.groups.length →
    let i := Instr.osetup pin v
    let g := pin.toNat / 32
    let b := pinBit pin
    let s1 := { s with token := s.ie, ie := false, seq := .busy i 1 }
    let s2 := { inGroup s1 g (fun grp => stage grp b v) with seq := .busy i 2 }
    let s3 := { inGroup s2 g (fun grp => { grp with dir := grp.dir ||| pinMask b }) with seq := .busy i 3 }
    let s4 := { inGroup s3 g (fun grp => grp.setPincfg b 0x00) with seq := .busy i 4 }
    exec i s = .next s1 ∧ exec i s1 = .next s2 ∧ exec i s2 = .next s3 ∧ exec i s3 = .next s4 ∧
      exec i s4 = .next { ended s s4 with
        delivered := { ctx := s.running.id, result := .handle (pinPort pin) (pinMask b) } :: s.delivered }

/-- R163, R164: the four micro-steps of IRESET; only a positive request enables the pull. `TOKEN` and
`TMP` are free values at its end. -/
def Obligations.IresetMicroSteps : Prop :=
  ∀ (s : State) (g : Port) (b : Pin) (p : Pull), Accepting s → g.toNat < s.groups.length →
    let i := Instr.ireset g b p
    let s1 := { s with token := s.ie, ie := false, seq := .busy i 1 }
    let s2 := { inGroup s1 g.toNat (fun grp => grp.setPincfg b (if p = .plus then 0x04 else 0x00)) with seq := .busy i 2 }
    let s3 := { inGroup s2 g.toNat (fun grp => { grp with dir := grp.dir &&& ~~~(pinMask b) }) with seq := .busy i 3 }
    exec i s = .next s1 ∧ exec i s1 = .next s2 ∧ exec i s2 = .next s3 ∧
      exec i s3 = .next (ended s s3)

/-- R161, R164: the four micro-steps of ISETUP for a pin that exists; the handle is delivered. `TOKEN` and
`TMP` are free values at its end. -/
def Obligations.IsetupMicroSteps : Prop :=
  ∀ (s : State) (pin : PinId) (p : Pull), Accepting s → pin.toNat / 32 < s.groups.length →
    let i := Instr.isetup pin p
    let g := pin.toNat / 32
    let b := pinBit pin
    let s1 := { s with token := s.ie, ie := false, seq := .busy i 1 }
    let s2 := { inGroup s1 g (fun grp => grp.setPincfg b (if p = .plus then 0x04 else 0x00)) with seq := .busy i 2 }
    let s3 := { inGroup s2 g (fun grp => { grp with dir := grp.dir &&& ~~~(pinMask b) }) with seq := .busy i 3 }
    exec i s = .next s1 ∧ exec i s1 = .next s2 ∧ exec i s2 = .next s3 ∧
      exec i s3 = .next { ended s s3 with
        delivered := { ctx := s.running.id, result := .handle (pinPort pin) (pinMask b) } :: s.delivered }

/-- R112, R113: the five micro-steps of CFGP with a function, on a multiplexer byte that holds legal nibbles. `TOKEN` and
`TMP` are free values at its end. -/
def Obligations.CfgpFunctionMicroSteps : Prop :=
  ∀ (s : State) (g : Port) (b : Pin) (n : BitVec 4) (p : Pull), Accepting s → g.toNat < s.groups.length →
    n.toNat < s.numFuncs → p ≠ .minus → pmuxLegal s.numFuncs ((s.group g.toNat).pmuxAt (pinPair b)) = true →
    let i := Instr.cfgp g b (.letter n) p
    let old := (s.group g.toNat).pmuxAt (pinPair b)
    let s1 := { s with token := s.ie, ie := false, seq := .busy i 1 }
    let s2 := { s1 with tmp := old, seq := .busy i 2 }
    let s3 := { inGroup s2 g.toNat (fun grp => grp.setPmux (pinPair b) (nibbleInsert old (b.getLsbD 0) n)) with
      seq := .busy i 3 }
    let s4 := { inGroup s3 g.toNat (fun grp => grp.setPincfg b (if p = .plus then 0x05 else 0x01)) with seq := .busy i 4 }
    exec i s = .next s1 ∧ exec i s1 = .next s2 ∧ exec i s2 = .next s3 ∧ exec i s3 = .next s4 ∧
      exec i s4 = .next (ended s s4)

/-- R112, R114: the three micro-steps of CFGP with "none"; neither the multiplexer byte nor `TMP` is written. `TOKEN` and
`TMP` are free values at its end. -/
def Obligations.CfgpNoneMicroSteps : Prop :=
  ∀ (s : State) (g : Port) (b : Pin) (p : Pull), Accepting s → g.toNat < s.groups.length → p ≠ .minus →
    let i := Instr.cfgp g b .gpio p
    let s1 := { s with token := s.ie, ie := false, seq := .busy i 3 }
    let s2 := { inGroup s1 g.toNat (fun grp => grp.setPincfg b (if p = .plus then 0x04 else 0x00)) with seq := .busy i 4 }
    exec i s = .next s1 ∧ exec i s1 = .next s2 ∧ exec i s2 = .next (ended s s2)

/-- R204 (with R132, R162, R202): a setup of a pin whose port does not exist halts before any register access, and changes
nothing but `HALT`. -/
def Obligations.BadPinHalts : Prop :=
  ∀ (s : State) (pin : PinId) (v : Bool) (p : Pull), Accepting s → s.groups.length ≤ pin.toNat / 32 →
    exec (.osetup pin v) s = .next { s with halt := some .notOutputPin } ∧
    exec (.isetup pin p) s = .next { s with halt := some .notInputPin }

/-! ## Whole commands -/

/-- R241, R37, R36: an accepted command is back at idle after exactly its number of micro-steps, with `IE = 0` at every boundary
inside it and the prior `IE` at its end. -/
def Obligations.CommandsComplete : Prop :=
  ∀ (s : State) (i : Instr), Accepting s → WellFormed s.config i = true → groupOf i < s.groups.length → s.RegsLegal →
    (∀ n, 0 < n → n < microSteps i → ∃ u, runMicro i n s = .next u ∧ u.seq ≠ .idle ∧ u.ie = false) ∧
    ∃ t, runMicro i (microSteps i) s = .next t ∧ t.seq = .idle ∧ t.ie = s.ie ∧ t.live = true

/-- R116: the footprint of CFGP. -/
def Obligations.CfgpFootprint : Prop :=
  ∀ (s : State) (g : Port) (b : Pin) (f : FuncSel) (p : Pull), Accepting s → s.RegsLegal →
    WellFormed s.config (.cfgp g b f p) = true →
    ∃ t, runMicro (.cfgp g b f p) (microSteps (.cfgp g b f p)) s = .next t ∧
      (∀ g', g' ≠ g.toNat → t.group g' = s.group g') ∧
      (∀ b', b' ≠ b → (t.group g.toNat).pincfgAt b' = (s.group g.toNat).pincfgAt b') ∧
      (∀ k, k ≠ pinPair b → (t.group g.toNat).pmuxAt k = (s.group g.toNat).pmuxAt k) ∧
      (t.group g.toNat).muxNibble (neighbour b) = (s.group g.toNat).muxNibble (neighbour b) ∧
      (t.group g.toNat).dir = (s.group g.toNat).dir ∧ (t.group g.toNat).out = (s.group g.toNat).out ∧
      (f = .gpio → (t.group g.toNat).pmux = (s.group g.toNat).pmux) ∧
      ∀ n, f = .letter n → (t.group g.toNat).drive b = .periph n

/-- R134: glitch freedom of ORESET and OSETUP, at every boundary between micro-steps. -/
def Obligations.OutputGlitchFree : Prop :=
  ∀ (s : State) (g : Port) (b : Pin) (v : Bool) (i : Instr), Accepting s → g.toNat < s.groups.length →
    (i = .oreset g b v ∨ i = .osetup (pinOf g b) v) → ∀ n, n ≤ 5 →
    ∃ t, runMicro i n s = .next t ∧
      (n ≤ 1 → (t.group g.toNat).drive b = (s.group g.toNat).drive b) ∧
      (2 ≤ n → match (t.group g.toNat).drive b with
        | .periph _ => n ≤ 3 ∧ (s.group g.toNat).muxen b = true
        | .undriven _ => n = 2 ∧ (s.group g.toNat).dir.getLsbD b.toNat = false
        | .driven w => w = v)

/-- R165, R238: the input path is not glitch free: a pin routed to a peripheral with its direction bit set drives the stale
latch after micro-step 1, and is undriven after micro-step 2. -/
def Obligations.InputPathDrivesStaleLatch : Prop :=
  ∀ (s : State) (g : Port) (b : Pin) (p : Pull) (i : Instr), Accepting s → g.toNat < s.groups.length →
    (i = .ireset g b p ∨ i = .isetup (pinOf g b) p) → (s.group g.toNat).muxen b = true →
    (s.group g.toNat).dir.getLsbD b.toNat = true →
    ∃ t u, runMicro i 2 s = .next t ∧ (t.group g.toNat).drive b = .driven ((s.group g.toNat).out.getLsbD b.toNat) ∧
      runMicro i 3 s = .next u ∧ (u.group g.toNat).drive b = .undriven (pullOn p) ∧
      (u.group g.toNat).out = (s.group g.toNat).out

/-- R140: two toggles of one pin, in either form each, restore the state. -/
def Obligations.TogglesCancel : Prop :=
  ∀ (s : State) (g : Port) (b : Pin) (i j : Instr), Accepting s → g.toNat < s.groups.length →
    (i = .otoggle g b ∨ i = .otoggleNoirq g b) → (j = .otoggle g b ∨ j = .otoggleNoirq g b) →
    ∃ t, exec i s = .next t ∧ exec j t = .next s

/-- Property P1 of 95_test_vectors.md (R167): after OSETUP of a pin at `v`, IREAD of it delivers `v`. -/
def Obligations.OutputLoopsBack : Prop :=
  ∀ (s : State) (pin : PinId) (v : Bool), Accepting s → pin.toNat / 32 < s.groups.length → s.loopbackExact = true →
    ∃ t u, runMicro (.osetup pin v) 5 s = .next t ∧ exec (.iread (pinPort pin) (pinBit pin)) t = .next u ∧
      u.delivered.head? = some { ctx := s.running.id, result := .level v }

/-- R69: writes to DIRSET, DIRCLR, OUTSET, OUTCLR and OUTTGL whose values have no set bit in common commute. -/
def Obligations.DisjointWritesCommute : Prop :=
  ∀ (s : State) (g h : Nat) (q r : Reg) (x y : Word), s.live = true → g < s.groups.length → h < s.groups.length →
    BitRegister q → BitRegister r → x &&& y = 0 →
    ∃ s1 s2 t, exec (accessInstr true g x q) s = .next s1 ∧ exec (accessInstr true h y r) s1 = .next t ∧
      exec (accessInstr true h y r) s = .next s2 ∧ exec (accessInstr true g x q) s2 = .next t

/-! ## What no instruction does -/

/-- Which instructions may write each register of the register file: CFGP (R112), the output commands (R130, R136, R138, R139),
the input commands (R160, R166) and the direct accesses (R180 to R189); a refusal writes none (R207). -/
def Obligations.RegisterWriters : Prop :=
  ∀ (i : Instr) (s t : State) (g : Nat), exec i s = .next t →
    (mayWriteDir i = false → (t.group g).dir = (s.group g).dir) ∧
    (mayWriteOut i = false → (t.group g).out = (s.group g).out) ∧
    (mayWritePincfg i = false → (t.group g).pincfg = (s.group g).pincfg) ∧
    (mayWritePmux i = false → (t.group g).pmux = (s.group g).pmux)

/-- R20: no instruction writes a group but the one it acts on, and none changes how many there are. -/
def Obligations.GroupsIndependent : Prop :=
  ∀ (i : Instr) (s t : State), exec i s = .next t →
    t.groups.length = s.groups.length ∧ ∀ g, g ≠ groupOf i → t.group g = s.group g

/-- R130, R160, R116: in every state that meets the invariant, a micro-step of a command changes no other pin's direction,
latch, configuration or multiplexer nibble. -/
def Obligations.CommandsTouchOnePin : Prop :=
  ∀ (i : Instr) (s t : State) (g : Nat) (b : Pin), s.Inv → target i = some (g, b) → exec i s = .next t →
    ∀ (g' : Nat) (b' : Pin), (g', b') ≠ (g, b) →
      (t.group g').dir.getLsbD b'.toNat = (s.group g').dir.getLsbD b'.toNat ∧
      (t.group g').out.getLsbD b'.toNat = (s.group g').out.getLsbD b'.toNat ∧
      (t.group g').pincfgAt b' = (s.group g').pincfgAt b' ∧
      (t.group g').muxNibble b' = (s.group g').muxNibble b'

/-- R190, R34, R37, R42: what else no instruction changes: the contexts and the parameters; `IE`, `TOKEN` and `TMP`, but by
a guarded command; `TMP`, but by CFGP (R112) and at the end of a guarded command, where it is a free value; `SEQ`, for a direct
access; the results delivered, but one added; the count of draws, but by a read of IN and at the end of a guarded command. The
contexts, the list of results and the count are the model's own state (logs 10, 5). -/
def Obligations.OtherStateUnchanged : Prop :=
  ∀ (i : Instr) (s t : State), exec i s = .next t →
    t.running = s.running ∧ t.preempted = s.preempted ∧ t.ready = s.ready ∧ t.config = s.config ∧
    (guarded i = false → t.ie = s.ie ∧ t.token = s.token ∧ t.tmp = s.tmp) ∧
    ((∀ g b f p, i ≠ .cfgp g b f p) →
      t.tmp = s.tmp ∨ (guarded i = true ∧ t.seq = .idle ∧ t.tmp = Config.freeTmp s.draws)) ∧
    (target i = none → t.seq = s.seq) ∧
    (t.delivered = s.delivered ∨ ∃ r, t.delivered = { ctx := s.running.id, result := r } :: s.delivered) ∧
    (t.draws = s.draws ∨ (t.draws = s.draws + 1 ∧
      ((∃ g b, i = .iread g b) ∨ (∃ g, i = .ldwIn g) ∨ (guarded i = true ∧ t.seq = .idle))))

/-- R38: HALT holds a code of the two; it is set only by the fatal abort of a setup command whose pin is out of range; while it
is set nothing has a step. -/
def Obligations.HaltDiscipline : Prop :=
  (FatalCode.notOutputPin.code = 1 ∧ FatalCode.notOutputPin.diagnostic = "Not an output pin" ∧
    FatalCode.notInputPin.code = 2 ∧ FatalCode.notInputPin.diagnostic = "Not an input pin") ∧
  (∀ (s t : State) (c : FatalCode), s.Inv → step s = .next t → t.halt = some c →
    s.halt = none ∧ s.seq = .idle ∧ t.groups = s.groups ∧ t.ie = s.ie ∧ t.token = s.token ∧
    ∃ w rest i, s.running.todo = .command w :: rest ∧ decodeWord s.config w = .ok i ∧ s.groups.length ≤ groupOf i ∧
      ((c = .notOutputPin ∧ ∃ pin v, i = .osetup pin v) ∨ (c = .notInputPin ∧ ∃ pin p, i = .isetup pin p))) ∧
  ∀ (s : State) (c : FatalCode), s.halt = some c → s.refused = none →
    step s = .fault (.halted c) ∧ ∀ i, exec i s = .fault (.halted c)

/-- R39, R207: REFUSED is set only by a word or an access that decode refuses, with its reason, in a step that changes nothing
else (but the count of free values); it is never cleared: once it is set nothing has a step. -/
def Obligations.RefusedDiscipline : Prop :=
  (∀ (s t : State) (r : RefuseReason), s.Inv → step s = .next t → t.refused = some r →
    s.refused = none ∧
    (t = { s with refused := some r } ∨ t = { s with refused := some r, draws := s.draws + 1 }) ∧
    ∃ q rest, s.running.todo = q :: rest ∧ decodeRequest s.config q = some (.error (.refuse r))) ∧
  ∀ (s : State) (r : RefuseReason), s.refused = some r →
    step s = .refused (.marked r) ∧ ∀ i, exec i s = .refused (.marked r)

/-- R36: a command presented to a sequencer that executes another one is not accepted (log 12). -/
def Obligations.BusySequencerAcceptsNothing : Prop :=
  ∀ (s : State) (i cmd : Instr) (k : Nat), s.live = true → s.seq = .busy cmd k → (target i).isSome = true → i ≠ cmd →
    exec i s = .fault .sequencerBusy

/-! ## The step -/

/-- A step runs the decoded instruction: with an idle sequencer and no interrupt to begin, a step is exec of the instruction the
running context's next request stands for, with that request issued. -/
def Obligations.StepRunsDecodedInstruction : Prop :=
  ∀ (s : State) (r : Request) (rest : List Request) (i : Instr), Accepting s → Undisturbed s →
    s.running.todo = r :: rest → decodeRequest s.config r = some (.ok i) →
    step s = exec i { s with running := { s.running with todo := rest } }

/-- R33, R36: with a command in execution and no interrupt to begin, a step is its next micro-step. -/
def Obligations.StepRunsBusyCommand : Prop :=
  ∀ (s : State) (cmd : Instr) (k : Nat), s.live = true → Undisturbed s → s.seq = .busy cmd k → step s = exec cmd s

/-- R51: an access below the first window is none of GPIOMUX; the machine stops by a fault of that name (log 9). -/
def Obligations.AccessOutsideWindows : Prop :=
  ∀ (s : State) (a : Access) (rest : List Request), Accepting s → Undisturbed s → s.running.todo = .bus a :: rest →
    a.addr < s.portBase → step s = .fault (.outsideWindow a.addr)

/-- R37: a context's own critical section saves `IE` and clears it, and gives the saved value back. That a context holds its tokens
in a list (log 11), and that `TOKEN` and `TMP` stay at the free values they have between commands (log 17), are the model's choices. -/
def Obligations.CriticalSections : Prop :=
  ∀ (s : State) (rest : List Request), Accepting s → Undisturbed s →
    (s.running.todo = .enter :: rest →
      step s = .next { s with ie := false, running := { s.running with todo := rest, tokens := s.ie :: s.running.tokens } }) ∧
    (∀ t ts, s.running.todo = .exit :: rest → s.running.tokens = t :: ts →
      step s = .next { s with ie := t, running := { s.running with todo := rest, tokens := ts } }) ∧
    (∀ v, s.running.todo = .setIe v :: rest →
      step s = .next { s with ie := v, running := { s.running with todo := rest } })

/-- R35: a context with nothing more to issue gives way to the one it preempted; with none, nothing changes (R231). That a
context's end leaves `IE` as it is (log 16) and `TOKEN` and `TMP` at the free values they have (log 17), and that a machine with nothing to issue
steps to itself (log 13), are the model's choices. -/
def Obligations.ContextEnds : Prop :=
  ∀ s : State, Accepting s → Undisturbed s → s.running.todo = [] →
    (∀ c rest, s.preempted = c :: rest → step s = .next { s with running := c, preempted := rest }) ∧
    (s.preempted = [] → step s = .next s)

/-- R206, R35: an interrupt context begins only where `IE = 1`; where it is 1 and one is ready, the free value of this point
says which begins, in a step that does nothing else, or that none does, and then the running context takes its step. It holds
for every value of that free value (log 6). That the beginning leaves `IE` as it is (log 16) and `TOKEN` and `TMP` at the free
values they have (log 17) are the model's choices. -/
def Obligations.InterruptsBeginWhereEnabled : Prop :=
  (∀ s t : State, s.ie = false → step s = .next t → t.ready = s.ready) ∧
  ∀ s : State, s.live = true → s.ie = true → s.ready ≠ [] →
    let u := { s with draws := s.draws + 1 }
    step s =
      match Config.arrival s.draws with
      | none => u.proceed
      | some k =>
        match s.ready[k]? with
        | none => u.proceed
        | some c => .next { u with running := c, preempted := s.running :: s.preempted, ready := s.ready.eraseIdx k }

/-- R190, R36, R115: while a guarded sequence runs no other context begins, ends or takes a step. -/
def Obligations.GuardExcludesContexts : Prop :=
  ∀ (s t : State) (cmd : Instr) (k : Nat), s.seq = .busy cmd k → s.ie = false → step s = .next t →
    exec cmd s = .next t ∧ t.running = s.running ∧ t.preempted = s.preempted ∧ t.ready = s.ready

/-- The invariant of the machine (Safety.lean: legal parameters and registers, a legal sequencer) is kept by every step. -/
def Obligations.InvariantKept : Prop :=
  ∀ s t : State, s.Inv → step s = .next t → t.Inv

/-- The invariant holds after reset, for all admitted parameters (`PORT_BASE` any multiple of 0x80, log 18) and all legal
reset values, with `TOKEN` and `TMP` any, those of the model (logs 2, 3, 4) among them. -/
def Obligations.InvariantAtReset : Prop :=
  (∀ (c : Config) (groups : List Group) (ie token : Bool) (tmp : Byte), c.wf = true → groups.length = c.numPorts →
    (∀ grp ∈ groups, grp.Legal c.numFuncs) → (State.launch c groups ie token tmp).Inv) ∧ State.reset.Inv

/-- R42: no step changes a parameter, the number of groups among them. -/
def Obligations.ParametersNeverChange : Prop :=
  ∀ s t : State, step s = .next t → t.config = s.config

/-- R230: what reset leaves, for every value of the OPEN reset values and of `TOKEN` and `TMP`. -/
def Obligations.ResetState : Prop :=
  ∀ (c : Config) (groups : List Group) (ie token : Bool) (tmp : Byte),
    let s := State.launch c groups ie token tmp
    s.groups = groups ∧ s.ie = ie ∧ s.seq = .idle ∧ s.halt = none ∧ s.refused = none

/-- R231: after reset the machine executes nothing until a context issues something. That a waiting machine steps to itself
(log 13), `TOKEN` and `TMP` at whatever values they have (log 17), is the model's choice. -/
def Obligations.NothingRunsAfterReset : Prop :=
  ∀ (c : Config) (groups : List Group) (ie token : Bool) (tmp : Byte),
    step (State.launch c groups ie token tmp) = .next (State.launch c groups ie token tmp)

/-- R240: a good end is a state with an idle sequencer, no halt and no refusal in which no context that has begun has a command or
an access to issue; where no interrupt context waits to begin, every step from it is to a good end again, with the registers
and the results as they were. That the other requests of a context may still be left is no bar (log 11 has them). -/
def Obligations.GoodEndLasts : Prop :=
  (∀ s : State, s.goodEnd = true ↔
    s.seq = .idle ∧ s.halt = none ∧ s.refused = none ∧
      ∀ c ∈ s.running :: s.preempted, ∀ r ∈ c.todo, (∀ w, r ≠ .command w) ∧ ∀ a, r ≠ .bus a) ∧
  ∀ s t : State, s.goodEnd = true → s.ready = [] → step s = .next t →
    t.goodEnd = true ∧ t.ready = [] ∧ t.groups = s.groups ∧ t.delivered = s.delivered

end Statements
end

