-- ==== Sys2Proof/Laws/State.lean ====
section
/-! SUPPORT. One lemma per field for each named update of the state, and the bit helpers' small lemmas. -/

namespace Sys2Proof.Machine

variable (s : State)

/-! ## The parameters -/

@[simp] theorem State.config_numPorts : s.config.numPorts = s.groups.length := rfl
@[simp] theorem State.config_numFuncs : s.config.numFuncs = s.numFuncs := rfl
@[simp] theorem State.config_portBase : s.config.portBase = s.portBase := rfl
@[simp] theorem State.config_loopbackExact : s.config.loopbackExact = s.loopbackExact := rfl

/-! ## Writing a register -/

section WriteReg
variable (g : Nat) (r : Reg) (v : Word)
@[simp] theorem State.writeReg_seq : (s.writeReg g r v).seq = s.seq := rfl
@[simp] theorem State.writeReg_token : (s.writeReg g r v).token = s.token := rfl
@[simp] theorem State.writeReg_tmp : (s.writeReg g r v).tmp = s.tmp := rfl
@[simp] theorem State.writeReg_ie : (s.writeReg g r v).ie = s.ie := rfl
@[simp] theorem State.writeReg_halt : (s.writeReg g r v).halt = s.halt := rfl
@[simp] theorem State.writeReg_refused : (s.writeReg g r v).refused = s.refused := rfl
@[simp] theorem State.writeReg_running : (s.writeReg g r v).running = s.running := rfl
@[simp] theorem State.writeReg_preempted : (s.writeReg g r v).preempted = s.preempted := rfl
@[simp] theorem State.writeReg_ready : (s.writeReg g r v).ready = s.ready := rfl
@[simp] theorem State.writeReg_delivered : (s.writeReg g r v).delivered = s.delivered := rfl
@[simp] theorem State.writeReg_numFuncs : (s.writeReg g r v).numFuncs = s.numFuncs := rfl
@[simp] theorem State.writeReg_portBase : (s.writeReg g r v).portBase = s.portBase := rfl
@[simp] theorem State.writeReg_loopbackExact : (s.writeReg g r v).loopbackExact = s.loopbackExact := rfl
@[simp] theorem State.writeReg_draws : (s.writeReg g r v).draws = s.draws := rfl
@[simp] theorem State.writeReg_length : (s.writeReg g r v).groups.length = s.groups.length := by simp [State.writeReg]
@[simp] theorem State.writeReg_config : (s.writeReg g r v).config = s.config := by simp [State.config]
end WriteReg

/-- A write changes the group written, when it exists, and no other. -/
theorem State.group_writeReg (g : Nat) (r : Reg) (v : Word) (g' : Nat) :
    (s.writeReg g r v).group g' =
      if g = g' ∧ g < s.groups.length then (s.group g').write v r else s.group g' := by
  simp only [State.group, State.writeReg, List.getElem?_modify]
  by_cases h : g = g'
  · subst h
    by_cases hl : g < s.groups.length
    · simp [hl]
    · simp [hl]
  · simp [h]

/-! ## The end of a guarded command: `TOKEN`, `TMP` and the count of draws, and nothing else -/

section Forget
@[simp] theorem State.forget_groups : s.forget.groups = s.groups := rfl
@[simp] theorem State.forget_seq : s.forget.seq = s.seq := rfl
@[simp] theorem State.forget_token : s.forget.token = Config.freeToken s.draws := rfl
@[simp] theorem State.forget_tmp : s.forget.tmp = Config.freeTmp s.draws := rfl
@[simp] theorem State.forget_ie : s.forget.ie = s.ie := rfl
@[simp] theorem State.forget_halt : s.forget.halt = s.halt := rfl
@[simp] theorem State.forget_refused : s.forget.refused = s.refused := rfl
@[simp] theorem State.forget_running : s.forget.running = s.running := rfl
@[simp] theorem State.forget_preempted : s.forget.preempted = s.preempted := rfl
@[simp] theorem State.forget_ready : s.forget.ready = s.ready := rfl
@[simp] theorem State.forget_delivered : s.forget.delivered = s.delivered := rfl
@[simp] theorem State.forget_numFuncs : s.forget.numFuncs = s.numFuncs := rfl
@[simp] theorem State.forget_portBase : s.forget.portBase = s.portBase := rfl
@[simp] theorem State.forget_loopbackExact : s.forget.loopbackExact = s.loopbackExact := rfl
@[simp] theorem State.forget_draws : s.forget.draws = s.draws + 1 := rfl
@[simp] theorem State.forget_config : s.forget.config = s.config := rfl
@[simp] theorem State.forget_group (g : Nat) : s.forget.group g = s.group g := rfl
end Forget

/-! ## Delivering a result -/

section Deliver
variable (r : Option Result)
@[simp] theorem State.deliver_groups : (s.deliver r).groups = s.groups := by cases r <;> rfl
@[simp] theorem State.deliver_seq : (s.deliver r).seq = s.seq := by cases r <;> rfl
@[simp] theorem State.deliver_token : (s.deliver r).token = s.token := by cases r <;> rfl
@[simp] theorem State.deliver_tmp : (s.deliver r).tmp = s.tmp := by cases r <;> rfl
@[simp] theorem State.deliver_ie : (s.deliver r).ie = s.ie := by cases r <;> rfl
@[simp] theorem State.deliver_halt : (s.deliver r).halt = s.halt := by cases r <;> rfl
@[simp] theorem State.deliver_refused : (s.deliver r).refused = s.refused := by cases r <;> rfl
@[simp] theorem State.deliver_running : (s.deliver r).running = s.running := by cases r <;> rfl
@[simp] theorem State.deliver_preempted : (s.deliver r).preempted = s.preempted := by cases r <;> rfl
@[simp] theorem State.deliver_ready : (s.deliver r).ready = s.ready := by cases r <;> rfl
@[simp] theorem State.deliver_numFuncs : (s.deliver r).numFuncs = s.numFuncs := by cases r <;> rfl
@[simp] theorem State.deliver_portBase : (s.deliver r).portBase = s.portBase := by cases r <;> rfl
@[simp] theorem State.deliver_loopbackExact : (s.deliver r).loopbackExact = s.loopbackExact := by cases r <;> rfl
@[simp] theorem State.deliver_draws : (s.deliver r).draws = s.draws := by cases r <;> rfl
@[simp] theorem State.deliver_none : s.deliver none = s := rfl
@[simp] theorem State.deliver_some (x : Result) : s.deliver (some x) =
    { s with delivered := { ctx := s.running.id, result := x } :: s.delivered } := rfl
@[simp] theorem State.deliver_group (g : Nat) : (s.deliver r).group g = s.group g := by simp [State.group]
@[simp] theorem State.deliver_config : (s.deliver r).config = s.config := by simp [State.config]
end Deliver

/-! ## Contexts and the interrupt-enable bit: none of these touches the register file, `SEQ`, `TOKEN` or `TMP` -/

section Contexts
variable (rest : List Request)
@[simp] theorem State.issued_groups : (s.issued rest).groups = s.groups := rfl
@[simp] theorem State.issued_seq : (s.issued rest).seq = s.seq := rfl
@[simp] theorem State.issued_tmp : (s.issued rest).tmp = s.tmp := rfl
@[simp] theorem State.issued_ie : (s.issued rest).ie = s.ie := rfl
@[simp] theorem State.issued_halt : (s.issued rest).halt = s.halt := rfl
@[simp] theorem State.issued_refused : (s.issued rest).refused = s.refused := rfl
@[simp] theorem State.issued_ready : (s.issued rest).ready = s.ready := rfl
@[simp] theorem State.issued_numFuncs : (s.issued rest).numFuncs = s.numFuncs := rfl
@[simp] theorem State.issued_config : (s.issued rest).config = s.config := rfl
@[simp] theorem State.issued_group (g : Nat) : (s.issued rest).group g = s.group g := rfl
@[simp] theorem State.enterSection_groups : s.enterSection.groups = s.groups := rfl
@[simp] theorem State.enterSection_seq : s.enterSection.seq = s.seq := rfl
@[simp] theorem State.enterSection_config : s.enterSection.config = s.config := rfl
@[simp] theorem State.hostIe_groups (v : Bool) : (s.hostIe v).groups = s.groups := rfl
@[simp] theorem State.hostIe_seq (v : Bool) : (s.hostIe v).seq = s.seq := rfl
@[simp] theorem State.hostIe_config (v : Bool) : (s.hostIe v).config = s.config := rfl
@[simp] theorem State.begin_groups (c : Context) (l : List Context) : (s.begin c l).groups = s.groups := rfl
@[simp] theorem State.begin_seq (c : Context) (l : List Context) : (s.begin c l).seq = s.seq := rfl
@[simp] theorem State.begin_config (c : Context) (l : List Context) : (s.begin c l).config = s.config := rfl
end Contexts

/-- What polling for an interrupt can do: nothing, or one free value used. -/
theorem State.polled_eq : s.polled = s ∨ s.polled = { s with draws := s.draws + 1 } := by
  unfold State.polled; split <;> simp

/-- What the end of a context can do: nothing, or the context it preempted goes on. -/
theorem State.finishContext_eq : (s.preempted = [] ∧ s.finishContext = s) ∨
    ∃ c rest, s.preempted = c :: rest ∧ s.finishContext = { s with running := c, preempted := rest } := by
  unfold State.finishContext; split
  · next h => exact .inl ⟨h, rfl⟩
  · next c rest h => exact .inr ⟨c, rest, h, rfl⟩

/-- A step is taken exactly when the machine has not stopped. -/
theorem State.unlessStopped_live {s : State} (h : s.live = true) (act : Host.Outcome State Fault Refusal) :
    s.unlessStopped act = act := by
  simp only [State.live, Bool.and_eq_true, Option.isNone_iff_eq_none] at h
  simp [State.unlessStopped, h.1, h.2]

/-- A next state comes only from a machine that has not stopped. -/
theorem State.unlessStopped_next {s t : State} {act : Host.Outcome State Fault Refusal}
    (h : s.unlessStopped act = .next t) : s.live = true ∧ act = .next t := by
  unfold State.unlessStopped at h
  split at h
  · cases h
  · split at h
    · cases h
    · next hr _ hh => exact ⟨by simp [State.live, hr, hh], h⟩

/-! ## Bytes of a group -/

/-- Reading a configuration byte after writing one. -/
theorem Group.pincfgAt_setPincfg (grp : Group) (b c : Pin) (v : Byte) :
    (grp.setPincfg b v).pincfgAt c = if c = b then v else grp.pincfgAt c := by
  simp [Group.setPincfg, Group.pincfgAt, Vector.getElem_set, BitVec.toNat_inj, eq_comm]

/-- Reading a multiplexer byte after writing one. -/
theorem Group.pmuxAt_setPmux (grp : Group) (k l : Pair) (v : Byte) :
    (grp.setPmux k v).pmuxAt l = if l = k then v else grp.pmuxAt l := by
  simp [Group.setPmux, Group.pmuxAt, Vector.getElem_set, BitVec.toNat_inj, eq_comm]

@[simp] theorem Group.setPincfg_dir (grp : Group) (b : Pin) (v : Byte) : (grp.setPincfg b v).dir = grp.dir := rfl
@[simp] theorem Group.setPincfg_out (grp : Group) (b : Pin) (v : Byte) : (grp.setPincfg b v).out = grp.out := rfl
@[simp] theorem Group.setPincfg_pmuxAt (grp : Group) (b : Pin) (v : Byte) (k : Pair) :
    (grp.setPincfg b v).pmuxAt k = grp.pmuxAt k := rfl
@[simp] theorem Group.setPmux_dir (grp : Group) (k : Pair) (v : Byte) : (grp.setPmux k v).dir = grp.dir := rfl
@[simp] theorem Group.setPmux_out (grp : Group) (k : Pair) (v : Byte) : (grp.setPmux k v).out = grp.out := rfl
@[simp] theorem Group.setPmux_pincfgAt (grp : Group) (k : Pair) (v : Byte) (b : Pin) :
    (grp.setPmux k v).pincfgAt b = grp.pincfgAt b := rfl

/-! ## Packed bits -/

/-- Bit `i` of a packed word is the function's value at `i`. -/
theorem packBits_getLsbD (n : Nat) (f : Nat → Bool) (i : Nat) :
    (packBits n f).getLsbD i = (decide (i < n) && f i) := by
  induction n with
  | zero => simp [packBits]
  | succ n ih =>
    simp only [packBits, BitVec.getLsbD_cons, ih]
    rcases Nat.lt_trichotomy i n with h | h | h
    · simp [h, Nat.ne_of_lt h, Nat.lt_succ_of_lt h]
    · simp [h]
    · simp [Nat.ne_of_gt h, Nat.not_lt_of_gt h]; omega

/-- Bit `b` of the input word is the level of pin `b` (10_state.md R28). -/
theorem Group.inWord_getLsbD (grp : Group) (loopback : Bool) (env : Word) (b : Pin) :
    (grp.inWord loopback env).getLsbD b.toNat = grp.level loopback env b := by
  rw [Group.inWord, packBits_getLsbD, decide_eq_true (show b.toNat < 32 from b.isLt), BitVec.ofNat_toNat,
    BitVec.setWidth_eq, Bool.true_and]

/-- Bit `i` of a pin's mask is set for that pin alone (00_scope.md R10). -/
theorem pinMask_getLsbD (b : Pin) (i : Nat) : (pinMask b).getLsbD i = decide (i = b.toNat) := by
  have := b.isLt
  simp only [pinMask, BitVec.getLsbD_shiftLeft, BitVec.getLsbD_one]
  by_cases h : i = b.toNat
  · simp [h]; omega
  · simp [h]; omega

/-- A word tested with a pin's mask tests that pin's bit (42_input.md R166). -/
theorem and_pinMask_ne_zero (w : Word) (b : Pin) : (w &&& pinMask b != 0) = w.getLsbD b.toNat := by
  have hb : b.toNat < 32 := b.isLt
  rw [Bool.eq_iff_iff, bne_iff_ne, ne_eq, ← not_iff_not, Decidable.not_not]
  constructor
  · intro h
    have := congrArg (fun x => x.getLsbD b.toNat) h
    simpa [pinMask_getLsbD] using this
  · intro h
    apply BitVec.eq_of_getLsbD_eq
    intro i hi
    simp only [BitVec.getLsbD_and, pinMask_getLsbD]
    by_cases h' : i = b.toNat
    · subst h'; simpa using h
    · simp [h']

end Sys2Proof.Machine
end

