-- ==== Sys2Proof/Laws/Access.lean ====
section
/-! SUPPORT. What one register access can do, said once (20_memory.md R51 to R62). -/

namespace Sys2Proof.Machine

open Sys2Proof

theorem Reg.offset_lt (r : Reg) : r.offset < groupStride := by
  cases r with
  | pmux k => have := k.isLt; simp only [Reg.offset, groupStride]; omega
  | pincfg b => have := b.isLt; simp only [Reg.offset, groupStride]; omega
  | _ => decide

/-- The map of offsets is the inverse of the offset of a register. -/
theorem regAt_offset (r : Reg) : regAt r.offset = some r := by
  cases r with
  | pmux k =>
    have h := k.isLt
    have e : BitVec.ofNat 4 (0x30 + k.toNat - 0x30) = k := by
      rw [Nat.add_sub_cancel_left]; exact BitVec.ofNat_toNat .. |>.trans (BitVec.setWidth_eq k)
    simp only [regAt, Reg.offset, e]
    repeat rw [if_neg (by omega)]
    rw [if_pos (by omega)]
  | pincfg b =>
    have h := b.isLt
    have e : BitVec.ofNat 5 (0x40 + b.toNat - 0x40) = b := by
      rw [Nat.add_sub_cancel_left]; exact BitVec.ofNat_toNat .. |>.trans (BitVec.setWidth_eq b)
    simp only [regAt, Reg.offset, e]
    repeat rw [if_neg (by omega)]
    rw [if_pos (by omega)]
  | _ => rfl

/-- The address of an offset names its group and that offset (R51). -/
theorem locate_regAddr (base g off : Nat) (h : off < groupStride) : locate base (regAddr base g off) = some (g, off) := by
  have hb : ¬ regAddr base g off < base := by unfold regAddr; omega
  have hs : regAddr base g off - base = off + groupStride * g := by unfold regAddr; rw [Nat.mul_comm]; omega
  have hp : 0 < groupStride := by decide
  unfold locate
  rw [if_neg hb, hs, Nat.add_mul_div_left _ _ hp, Nat.add_mul_mod_self_left, Nat.div_eq_of_lt h, Nat.mod_eq_of_lt h,
    Nat.zero_add]

/-- An access at a register's own address: admitted exactly when the register takes it. -/
theorem resolve_reg (c : Config) (w : Bool) (n g : Nat) (r : Reg) (v : Word) :
    resolve c { write := w, size := n, addr := regAddr c.portBase g r.offset, data := v } =
      if Access.fits c { write := w, size := n, addr := regAddr c.portBase g r.offset, data := v } g r then .ok (g, r)
      else .error (.refuse .busAccess) := by
  simp only [resolve, locate_regAddr _ _ _ (Reg.offset_lt r), regAt_offset]

/-- What an admitted access is: its address lies in the window of its group, at its register's offset, and the register
takes it. -/
theorem resolve_ok {c : Config} {a : Access} {g : Nat} {r : Reg} (h : resolve c a = .ok (g, r)) :
    ∃ off, locate c.portBase a.addr = some (g, off) ∧ regAt off = some r ∧ a.fits c g r = true := by
  unfold resolve at h
  split at h
  · cases h
  · next g' off hl =>
    split at h
    · cases h
    · next r' hr =>
      split at h
      · next hf => cases h; exact ⟨off, hl, hr, hf⟩
      · cases h

/-- A write at a register's own address and width (R56 to R62). -/
theorem State.memWrite_reg (s : State) (g : Nat) (r : Reg) (v : Word) :
    s.memWrite (s.addr g r.offset) r.width v =
      if decide (g < s.groups.length) && (r.writable && r.accepts s.numFuncs v) then .ok (s.writeReg g r v)
      else .error (.refuse .busAccess) := by
  have hf : Access.fits s.config { write := true, size := r.width, addr := s.addr g r.offset, data := v } g r =
      (decide (g < s.groups.length) && (r.writable && r.accepts s.numFuncs v)) := by
    unfold Access.fits; rw [beq_self_eq_true, Bool.and_true]; rfl
  have h : resolve s.config { write := true, size := r.width, addr := s.addr g r.offset, data := v } = _ :=
    resolve_reg s.config true r.width g r v
  unfold State.memWrite
  rw [h]
  rw [show Access.fits s.config { write := true, size := r.width, addr := regAddr s.config.portBase g r.offset, data := v }
    g r = _ from hf]
  cases decide (g < s.groups.length) && (r.writable && r.accepts s.numFuncs v) <;> rfl

/-- A read at a register's own address and width (R55, R61, R62). -/
theorem State.memRead_reg (s : State) (g : Nat) (r : Reg) :
    s.memRead (s.addr g r.offset) r.width =
      match s.readReg g r with
      | some res => if g < s.groups.length then .ok res else .error (.refuse .busAccess)
      | none => .error (.refuse .busAccess) := by
  have h := resolve_reg s.config false r.width g r 0
  simp only [Access.fits, State.config_numPorts, State.config_portBase, beq_self_eq_true, Bool.and_true] at h
  unfold State.memRead State.addr
  rw [h]
  by_cases hg : g < s.groups.length <;> cases r <;> simp [hg, Reg.readable, State.readReg]

/-- What any write that is made can do: it writes one register of one group that exists, with a value it takes. -/
theorem State.memWrite_ok {s t : State} {addr n : Nat} {v : Word} (h : s.memWrite addr n v = .ok t) :
    ∃ g r, t = s.writeReg g r v ∧ g < s.groups.length ∧ r.writable = true ∧ r.accepts s.numFuncs v = true := by
  unfold State.memWrite at h
  split at h
  · cases h
  · next g r ha =>
    cases h
    obtain ⟨_, _, _, hf⟩ := resolve_ok ha
    simp only [Access.fits, if_true, Bool.and_eq_true] at hf
    exact ⟨g, r, rfl, of_decide_eq_true hf.1.1, hf.2.1, hf.2.2⟩

/-- What a write at a register's own address can do, whatever its width: that register of that group is written. -/
theorem State.memWrite_addr {s t : State} {g n : Nat} {r : Reg} {v : Word}
    (h : s.memWrite (s.addr g r.offset) n v = .ok t) :
    t = s.writeReg g r v ∧ g < s.groups.length ∧ r.writable = true ∧ r.accepts s.numFuncs v = true := by
  have ha : resolve s.config { write := true, size := n, addr := s.addr g r.offset, data := v } = _ :=
    resolve_reg s.config true n g r v
  unfold State.memWrite at h
  rw [ha] at h
  split at h
  · cases h
  · next q heq =>
    split at heq
    · next hf =>
      cases heq; cases h
      simp only [Access.fits, if_true, Bool.and_eq_true] at hf
      exact ⟨rfl, of_decide_eq_true hf.1.1, hf.2.1, hf.2.2⟩
    · cases heq

/-- What a read at a register's own address can do, whatever its width: it is a read of that register of that group. -/
theorem State.memRead_addr {s t : State} {g n : Nat} {r : Reg} {v : Word}
    (h : s.memRead (s.addr g r.offset) n = .ok (v, t)) : g < s.groups.length ∧ s.readReg g r = some (v, t) := by
  have ha : resolve s.config { write := false, size := n, addr := s.addr g r.offset, data := 0 } = _ :=
    resolve_reg s.config false n g r 0
  unfold State.memRead at h
  rw [ha] at h
  split at h
  · cases h
  · next q heq =>
    split at heq
    · next hf =>
      cases heq
      simp only [Access.fits, Bool.and_eq_true] at hf
      split at h
      · next res hr => cases h; exact ⟨of_decide_eq_true hf.1.1, hr⟩
      · cases h
    · cases heq

end Sys2Proof.Machine
end

