-- ==== Sys2Proof/Laws/Commands.lean ====
section
/-! SUPPORT. What one micro-step and one direct access can do, said once (10_state.md R33, R36; 43_bus_access.md R190). -/

namespace Sys2Proof.Machine

variable {s : State} {g : Nat}

/-! ## Admitted accesses at a register's own address -/

/-- Writing a word register that is writable (R56 to R60). -/
theorem State.memWrite_word (hg : g < s.groups.length) (r : Reg) (hw : r.width = 4) (hr : r.writable = true) (v : Word) :
    s.memWrite (s.addr g r.offset) 4 v = .ok (s.writeReg g r v) := by
  have h := s.memWrite_reg g r v
  have ha : r.accepts s.numFuncs v = true := by cases r <;> first | rfl | cases hw
  rw [hw, decide_eq_true hg, hr, ha] at h
  exact h

/-- Writing a legal configuration byte (R61). -/
theorem State.memWrite_pincfg (hg : g < s.groups.length) (b : Pin) {v : Word} (hv : pincfgLegal (lowByte v) = true) :
    s.memWrite (s.addr g (Reg.pincfg b).offset) 1 v = .ok (s.writeReg g (.pincfg b) v) := by
  have h := s.memWrite_reg g (.pincfg b) v
  rw [show Reg.accepts s.numFuncs v (.pincfg b) = true from hv, decide_eq_true hg] at h
  exact h

/-- Writing a legal multiplexer byte (R61). -/
theorem State.memWrite_pmux (hg : g < s.groups.length) (k : Pair) {v : Word}
    (hv : pmuxLegal s.numFuncs (lowByte v) = true) :
    s.memWrite (s.addr g (Reg.pmux k).offset) 1 v = .ok (s.writeReg g (.pmux k) v) := by
  have h := s.memWrite_reg g (.pmux k) v
  rw [show Reg.accepts s.numFuncs v (.pmux k) = true from hv, decide_eq_true hg] at h
  exact h

/-- Reading the input word uses a fresh draw and changes nothing else (R55). -/
theorem State.memRead_inp (hg : g < s.groups.length) :
    s.memRead (s.addr g Reg.inp.offset) 4 =
      .ok ((s.group g).inWord s.loopbackExact (Config.pinLevels s.draws), { s with draws := s.draws + 1 }) := by
  have h := s.memRead_reg g .inp
  simp only [State.readReg, if_pos hg] at h
  exact h

/-- Reading a multiplexer byte changes nothing (R61). -/
theorem State.memRead_pmux (hg : g < s.groups.length) (k : Pair) :
    s.memRead (s.addr g (Reg.pmux k).offset) 1 = .ok (((s.group g).pmuxAt k).zeroExtend 32, s) := by
  have h := s.memRead_reg g (.pmux k)
  simp only [State.readReg, if_pos hg] at h
  exact h

/-- Reading a configuration byte changes nothing (R61). -/
theorem State.memRead_pincfg (hg : g < s.groups.length) (b : Pin) :
    s.memRead (s.addr g (Reg.pincfg b).offset) 1 = .ok (((s.group g).pincfgAt b).zeroExtend 32, s) := by
  have h := s.memRead_reg g (.pincfg b)
  simp only [State.readReg, if_pos hg] at h
  exact h

/-- The low byte of a byte laid out as a word is that byte. -/
@[simp] theorem lowByte_zeroExtend (v : Byte) : lowByte (v.zeroExtend 32) = v := by
  apply BitVec.eq_of_getLsbD_eq
  intro i hi
  simp [lowByte, hi]; omega

/-- The configuration byte CFGP, ISETUP and IRESET write is legal (R23). -/
theorem pincfgByte_legal (mux pull : Bool) : pincfgLegal (pincfgByte mux pull) = true := by
  cases mux <;> cases pull <;> decide

/-! ## Micro-steps -/

/-- An idle sequencer of a machine that has not stopped accepts a command at its micro-step 0. -/
theorem State.sequence_idle (hl : s.live = true) (hs : s.seq = .idle) (cmd : Instr)
    (micro : Nat → Host.Outcome State Fault Refusal) : s.sequence cmd micro = micro 0 := by
  rw [State.sequence, State.unlessStopped_live hl, hs]

/-- A sequencer executing a command goes on at its next micro-step. -/
theorem State.sequence_busy (hl : s.live = true) {cmd : Instr} {k : Nat} (hs : s.seq = .busy cmd k)
    (micro : Nat → Host.Outcome State Fault Refusal) : s.sequence cmd micro = micro k := by
  rw [State.sequence, State.unlessStopped_live hl, hs]
  exact if_pos rfl

/-- What a next state of a command comes from: a machine that has not stopped, at the micro-step `SEQ` names. -/
theorem State.sequence_next {cmd : Instr} {micro : Nat → Host.Outcome State Fault Refusal} {t : State}
    (h : s.sequence cmd micro = .next t) :
    s.live = true ∧ ((s.seq = .idle ∧ micro 0 = .next t) ∨ ∃ k, s.seq = .busy cmd k ∧ micro k = .next t) := by
  obtain ⟨hl, h⟩ := State.unlessStopped_next h
  refine ⟨hl, ?_⟩
  split at h
  · next hs => exact .inl ⟨hs, h⟩
  · next c k hs =>
    split at h
    · next hc => exact .inr ⟨k, hc ▸ hs, h⟩
    · cases h

/-- What a refusal or an access outside every window leaves: the mark alone, or no next state. -/
theorem State.reject_next {e : Reject} {t : State} (h : s.reject e = .next t) :
    ∃ r, e = .refuse r ∧ t = { s with refused := some r } := by
  cases e with
  | refuse r => cases h; exact ⟨r, rfl, rfl⟩
  | outside a => cases h

/-- What a writing micro-step can do: it writes its own register of its own group, which exists and takes the value, or it
sets the mark alone. -/
theorem State.writeStep_next {g n : Nat} {r : Reg} {v : Word} {seq : Seq} {t : State}
    (h : s.writeStep (s.addr g r.offset) n v seq = .next t) :
    (t = { s.writeReg g r v with seq := seq } ∧ g < s.groups.length ∧ r.writable = true ∧
        r.accepts s.numFuncs v = true) ∨
      ∃ r, t = { s with refused := some r } := by
  unfold State.writeStep at h
  split at h
  · next t' hw =>
    obtain ⟨rfl, hg, hr, ha⟩ := State.memWrite_addr hw
    cases h; exact .inl ⟨rfl, hg, hr, ha⟩
  · obtain ⟨r, -, ht⟩ := State.reject_next h
    exact .inr ⟨r, ht⟩

/-- What a direct write can do. -/
theorem State.busStore_next {g : Nat} {r : Reg} {v : Word} {t : State} (h : s.busStore g r v = .next t) :
    s.live = true ∧
      ((t = s.writeReg g r v ∧ g < s.groups.length ∧ r.writable = true ∧ r.accepts s.numFuncs v = true) ∨
        ∃ r, t = { s with refused := some r }) := by
  obtain ⟨hl, h⟩ := State.unlessStopped_next h
  refine ⟨hl, ?_⟩
  rw [State.memWrite_reg] at h
  split at h
  · next t' hw =>
    split at hw
    · next hc =>
      cases hw; cases h
      simp only [Bool.and_eq_true] at hc
      exact .inl ⟨rfl, of_decide_eq_true hc.1, hc.2.1, hc.2.2⟩
    · cases hw
  · obtain ⟨r, -, ht⟩ := State.reject_next h
    exact .inr ⟨r, ht⟩

/-- What any read can do: it changes no register, and uses at most one free value. -/
theorem State.memRead_ok {addr n : Nat} {v : Word} {t : State} (h : s.memRead addr n = .ok (v, t)) :
    t = s ∨ t = { s with draws := s.draws + 1 } := by
  unfold State.memRead at h
  split at h
  · cases h
  · next g r _ =>
    cases r <;> simp only [State.readReg, Except.ok.injEq, Prod.mk.injEq, reduceCtorEq] at h
    · exact .inr h.2.symm
    · exact .inl h.2.symm
    · exact .inl h.2.symm

/-- What a direct read can do: a result is delivered and at most one free value used, or the mark alone. -/
theorem State.busLoad_next {g : Nat} {r : Reg} {out : Word → Result} {t : State} (h : s.busLoad g r out = .next t) :
    s.live = true ∧
      ((∃ v u, (u = s ∨ u = { s with draws := s.draws + 1 }) ∧ t = u.deliver (some (out v))) ∨
        ∃ r, t = { s with refused := some r }) := by
  obtain ⟨hl, h⟩ := State.unlessStopped_next h
  refine ⟨hl, ?_⟩
  split at h
  · next v u hr => cases h; exact .inl ⟨v, u, State.memRead_ok hr, rfl⟩
  · obtain ⟨r, -, ht⟩ := State.reject_next h
    exact .inr ⟨r, ht⟩

end Sys2Proof.Machine
end

