-- ==== Sys2Proof/Laws/Encoding.lean ====
section
/-! SUPPORT. The fields of an encoded word, and what the decoder's checks can answer (30_encoding.md R81 to R88). -/

namespace Sys2Proof

/-! ## Fields of format C -/

section FormatC
variable (op : Opcode) (pull : BitVec 2) (val : Bool) (fsel : BitVec 8) (pin : PinId)

/-- Every bit of format C (R81). -/
theorem formatC_getLsbD (i : Nat) :
    (formatC op pull val fsel pin).getLsbD i =
      if i < 16 then pin.getLsbD i else if i < 24 then fsel.getLsbD (i - 16) else if i < 25 then false
      else if i < 26 then val else if i < 28 then pull.getLsbD (i - 26) else op.bits.getLsbD (i - 28) := by
  show @BitVec.getLsbD (4 + 2 + 1 + 1 + 8 + 16) (op.bits ++ pull ++ BitVec.ofBool val ++ 0#1 ++ fsel ++ pin) i = _
  simp only [BitVec.getLsbD_append, BitVec.getLsbD_ofBool, BitVec.getLsbD_zero, Nat.sub_sub]
  split_ifs <;> first | rfl | omega | simp_all

theorem wordOp_formatC : wordOp (formatC op pull val fsel pin) = op.bits := by
  apply BitVec.eq_of_getLsbD_eq; intro i hi
  rw [wordOp, BitVec.getLsbD_extractLsb', formatC_getLsbD, decide_eq_true hi, Bool.true_and]
  repeat rw [if_neg (by omega)]
  rw [Nat.add_sub_cancel_left]

theorem wordPull_formatC : wordPull (formatC op pull val fsel pin) = pull := by
  apply BitVec.eq_of_getLsbD_eq; intro i hi
  rw [wordPull, BitVec.getLsbD_extractLsb', formatC_getLsbD, decide_eq_true hi, Bool.true_and]
  iterate 4 rw [if_neg (by omega)]
  rw [if_pos (by omega), Nat.add_sub_cancel_left]

theorem wordVal_formatC : wordVal (formatC op pull val fsel pin) = val := by rw [wordVal, formatC_getLsbD]; rfl

theorem wordFsel_formatC : wordFsel (formatC op pull val fsel pin) = fsel := by
  apply BitVec.eq_of_getLsbD_eq; intro i hi
  rw [wordFsel, BitVec.getLsbD_extractLsb', formatC_getLsbD, decide_eq_true hi, Bool.true_and, if_neg (by omega),
    if_pos (by omega), Nat.add_sub_cancel_left]

theorem wordPin_formatC : wordPin (formatC op pull val fsel pin) = pin := by
  apply BitVec.eq_of_getLsbD_eq; intro i hi
  rw [wordPin, BitVec.getLsbD_extractLsb', formatC_getLsbD, decide_eq_true hi, Bool.true_and, Nat.zero_add, if_pos hi]

/-- A word of format C whose unread fields are 0 passes check 2 of R87. -/
theorem formatC_and_mask (h1 : op ≠ .cfgp → fsel = 0)
    (h2 : op ≠ .osetup → op ≠ .oreset → op ≠ .owrite → val = false)
    (h3 : op ≠ .isetup → op ≠ .ireset → pull.getLsbD 1 = false)
    (h4 : op ≠ .isetup → op ≠ .ireset → op ≠ .cfgp → pull = 0) :
    formatC op pull val fsel pin &&& op.mask = op.matchBits := by
  apply BitVec.eq_of_getLsbD_eq
  intro i hi
  rw [BitVec.getLsbD_and, formatC_getLsbD]
  cases op
  all_goals
    simp at h1 h2 h3 h4
    try subst h1
    try subst h2
    try subst h4
    interval_cases i <;> simp [Opcode.mask, Opcode.matchBits, Opcode.bits, h3]
end FormatC

/-- The port and bit fields of a word are those of its PIN field (R81). -/
theorem wordPort_eq (w : Word) : wordPort w = (wordPin w).extractLsb' 5 11 := by
  apply BitVec.eq_of_getLsbD_eq; intro i hi
  simp only [wordPort, wordPin, BitVec.getLsbD_extractLsb', hi, decide_true, Bool.true_and, Nat.zero_add,
    show 5 + i < 16 by omega]

theorem wordBit_eq (w : Word) : wordBit w = (wordPin w).extractLsb' 0 5 := by
  apply BitVec.eq_of_getLsbD_eq; intro i hi
  simp only [wordBit, wordPin, BitVec.getLsbD_extractLsb', hi, decide_true, Bool.true_and, Nat.zero_add,
    show i < 16 by omega]

/-- The port and bit of the pin made of a port and a bit (R12, R81). -/
theorem port_pinOf (g : Port) (b : Pin) : (pinOf g b).extractLsb' 5 11 = g := by
  apply BitVec.eq_of_getLsbD_eq; intro i hi
  simp only [pinOf, BitVec.getLsbD_extractLsb']
  show (decide (i < 11) && @BitVec.getLsbD (11 + 5) (g ++ b) (5 + i)) = _
  rw [BitVec.getLsbD_append, if_neg (by omega), decide_eq_true hi, Bool.true_and, Nat.add_sub_cancel_left]

theorem bit_pinOf (g : Port) (b : Pin) : (pinOf g b).extractLsb' 0 5 = b := by
  apply BitVec.eq_of_getLsbD_eq; intro i hi
  simp only [pinOf, BitVec.getLsbD_extractLsb']
  show (decide (i < 5) && @BitVec.getLsbD (11 + 5) (g ++ b) (0 + i)) = _
  rw [BitVec.getLsbD_append, if_pos (by omega), decide_eq_true hi, Bool.true_and, Nat.zero_add]

/-! ## Fields and their values -/

theorem Opcode.ofBits_bits (op : Opcode) : Opcode.ofBits op.bits = some op := by cases op <;> decide

theorem Opcode.bits_of_ofBits {b : BitVec 4} {op : Opcode} (h : Opcode.ofBits b = some op) : b = op.bits := by
  revert h; revert op b; decide

theorem Pull.ofBits_bits (p : Pull) : Pull.ofBits p.bits = some p := by cases p <;> decide

theorem Pull.bits_of_ofBits {b : BitVec 2} {p : Pull} (h : Pull.ofBits b = some p) : b = p.bits := by
  revert h; revert b p; decide

/-- The selector field of an existing letter is read back (R85). -/
theorem FuncSel.ofBits_bits (c : Config) (f : FuncSel) (h : f.wf c = true) : FuncSel.ofBits c.numFuncs f.bits = some f := by
  cases f with
  | gpio => rfl
  | letter n =>
    have hn : n.toNat < c.numFuncs := of_decide_eq_true h
    have hb : (FuncSel.letter n).bits.toNat = 0x41 + n.toNat := by
      simp [FuncSel.bits, BitVec.toNat_add]; omega
    unfold FuncSel.ofBits
    rw [if_neg (by intro e; have := congrArg BitVec.toNat e; rw [hb] at this; simp at this), hb, if_pos (by omega)]
    congr 2
    simp only [FuncSel.bits]
    rw [BitVec.add_comm, BitVec.add_sub_cancel]
    apply BitVec.eq_of_getLsbD_eq; intro i hi
    simp [hi]; omega

/-! ## What the checks can answer -/

theorem checkHandle_ok {c : Config} {g : Port} {i j : Instr} (h : checkHandle c g i = .ok j) :
    g.toNat < c.numPorts ∧ j = i := by
  unfold checkHandle at h
  split at h
  · next hg => cases h; exact ⟨hg, rfl⟩
  · cases h

theorem checkPull_ok {b : BitVec 2} {p : Pull} (h : checkPull b = .ok p) : Pull.ofBits b = some p := by
  unfold checkPull at h
  split at h
  · next hp => cases h; exact hp
  · cases h

theorem checkFunc_ok {c : Config} {b : BitVec 8} {f : FuncSel} (h : checkFunc c b = .ok f) :
    FuncSel.ofBits c.numFuncs b = some f := by
  unfold checkFunc at h
  split at h
  · next hf => cases h; exact hf
  · cases h

/-- What an accepted word is: its opcode is not reserved, its unread fields are 0, and its operands decode (R87). -/
theorem decodeWord_ok {c : Config} {w : Word} {i : Instr} (h : decodeWord c w = .ok i) :
    ∃ op, Opcode.ofBits (wordOp w) = some op ∧ w &&& op.mask = op.matchBits ∧ decodeOperands c w op = .ok i := by
  unfold decodeWord at h
  split at h
  · cases h
  · next op ho =>
    split at h
    · next hm => exact ⟨op, ho, hm, h⟩
    · cases h

end Sys2Proof
end

