-- ==== Sys2Proof/Laws/Exec.lean ====
section
/-! SUPPORT. What an instruction can do, said once for all of them: the inversion of exec. -/

namespace Sys2Proof.Machine

/-- The registers an instruction may write (40_peripheral_mux.md R112, 41_output.md R130, 42_input.md R160, 43_bus_access.md). -/
def writesReg : Instr → Reg → Prop
  | .cfgp _ b _ _, r => r = .pmux (pinPair b) ∨ r = .pincfg b
  | .osetup pin v, r => r = levelReg v ∨ r = .dirset ∨ r = .pincfg (pinBit pin)
  | .oreset _ b v, r => r = levelReg v ∨ r = .dirset ∨ r = .pincfg b
  | .owrite _ _ v, r => r = levelReg v
  | .otoggle _ _, r => r = .outtgl
  | .otoggleNoirq _ _, r => r = .outtgl
  | .isetup pin _, r => r = .pincfg (pinBit pin) ∨ r = .dirclr
  | .ireset _ b _, r => r = .pincfg b ∨ r = .dirclr
  | .stwDirclr _ _, r => r = .dirclr
  | .stwDirset _ _, r => r = .dirset
  | .stwOutclr _ _, r => r = .outclr
  | .stwOutset _ _, r => r = .outset
  | .stwOuttgl _ _, r => r = .outtgl
  | .stbPmux _ k _, r => r = .pmux k
  | .stbPincfg _ b _, r => r = .pincfg b
  | _, _ => False

/-- What an instruction can do when it answers a next state: one of seven things, each said whole. -/
inductive Effect (i : Instr) (s : State) : State → Prop where
  /-- One register of its group is written, and the sequencer moves (a direct access leaves it where it is). -/
  | wrote (r : Reg) (v : Word) (q : Seq) : writesReg i r → groupOf i < s.groups.length → r.writable = true →
      r.accepts s.numFuncs v = true → Effect i s { s.writeReg (groupOf i) r v with seq := q }
  /-- A guarded command saves and clears `IE`. -/
  | entered (k : Nat) : lastMicroStep i ≠ 0 → Effect i s { s with token := s.ie, ie := false, seq := .busy i k }
  /-- A guarded command gives `IE` back and completes; `TOKEN` and `TMP` become free values. -/
  | left (r : Option Result) : lastMicroStep i ≠ 0 → Effect i s ({ s with ie := s.token, seq := .idle }.forget.deliver r)
  /-- CFGP reads its multiplexer byte. -/
  | readMux (g : Port) (b : Pin) (f : FuncSel) (p : Pull) : i = .cfgp g b f p → groupOf i < s.groups.length →
      Effect i s { s with tmp := (s.group (groupOf i)).pmuxAt (pinPair b), seq := .busy i 2 }
  /-- A read delivers its value; a read of IN uses a free value. -/
  | loaded (u : State) (q : Seq) (r : Result) : u = s ∨ u = { s with draws := s.draws + 1 } →
      ((∃ g b, i = .iread g b) ∨ (∃ g, i = .ldwIn g) ∨ (((∃ g k, i = .ldbPmux g k) ∨ ∃ g b, i = .ldbPincfg g b) ∧ u = s)) →
      Effect i s ({ u with seq := q }.deliver (some r))
  /-- The mark REFUSED is set. -/
  | refused (r : RefuseReason) : Effect i s { s with refused := some r }
  /-- A setup command whose pin is out of range halts the machine. -/
  | halted (c : FatalCode) : s.groups.length ≤ groupOf i →
      ((c = .notOutputPin ∧ ∃ pin v, i = .osetup pin v) ∨ (c = .notInputPin ∧ ∃ pin p, i = .isetup pin p)) →
      (s.seq = .idle ∨ s.seq = .busy i 0) → Effect i s { s with halt := some c }

variable {s t : State}

/-- An instruction leaves every group as it is, or writes one register it may write in the group it acts on. -/
theorem Effect.group {i : Instr} (h : Effect i s t) (g : Nat) :
    t.group g = s.group g ∨
      ∃ r v, writesReg i r ∧ g = groupOf i ∧ r.writable = true ∧ r.accepts s.numFuncs v = true ∧
        t.group g = (s.group g).write v r := by
  cases h with
  | wrote r v q hw hl hr ha =>
    have e : ({ s.writeReg (groupOf i) r v with seq := q } : State).group g = (s.writeReg (groupOf i) r v).group g := rfl
    rw [e, State.group_writeReg]
    by_cases h : groupOf i = g ∧ groupOf i < s.groups.length
    · exact .inr ⟨r, v, hw, h.1.symm, hr, ha, if_pos h⟩
    · exact .inl (if_neg h)
  | entered => exact .inl rfl
  | left => left; rw [State.deliver_group]; rfl
  | readMux => exact .inl rfl
  | loaded u q r hu => left; rw [State.deliver_group]; rcases hu with rfl | rfl <;> rfl
  | refused => exact .inl rfl
  | halted => exact .inl rfl

/-- No instruction changes the number of groups. -/
theorem Effect.length {i : Instr} (h : Effect i s t) : t.groups.length = s.groups.length := by
  cases h with
  | loaded u q r hu => rcases hu with rfl | rfl <;> simp
  | _ => simp

/-- What a writing micro-step of instruction `i` is among those. -/
theorem Effect.of_writeStep {i : Instr} {g n : Nat} {r : Reg} {v : Word} {q : Seq}
    (h : s.writeStep (s.addr g r.offset) n v q = .next t) (hg : g = groupOf i) (hw : writesReg i r) : Effect i s t := by
  subst hg
  rcases State.writeStep_next h with ⟨rfl, hl, hr, ha⟩ | ⟨e, rfl⟩
  · exact .wrote r v q hw hl hr ha
  · exact .refused e

/-- The same of a direct write; the sequencer does not move. -/
theorem Effect.of_busStore {i : Instr} {g : Nat} {r : Reg} {v : Word} (h : s.busStore g r v = .next t)
    (hg : g = groupOf i) (hw : writesReg i r) : s.live = true ∧ Effect i s t ∧ t.seq = s.seq := by
  subst hg
  obtain ⟨hl, ⟨rfl, hg, hr, ha⟩ | ⟨e, rfl⟩⟩ := State.busStore_next h
  · exact ⟨hl, .wrote r v s.seq hw hg hr ha, rfl⟩
  · exact ⟨hl, .refused e, rfl⟩

theorem outputStep_next {i : Instr} {g : Port} {b : Pin} {v : Bool} {r : Option Result} {k : Nat}
    (h : s.outputStep i g b v r k = .next t) (hg : g.toNat = groupOf i)
    (hw : ∀ q, q = levelReg v ∨ q = .dirset ∨ q = .pincfg b → writesReg i q) (hl : lastMicroStep i ≠ 0) : Effect i s t := by
  match k with
  | 0 => cases h; exact .entered 1 hl
  | 1 => exact .of_writeStep h hg (hw _ (.inl rfl))
  | 2 => exact .of_writeStep h hg (hw _ (.inr (.inl rfl)))
  | 3 => exact .of_writeStep h hg (hw _ (.inr (.inr rfl)))
  | 4 => cases h; exact .left r hl
  | _ + 5 => cases h

theorem inputStep_next {i : Instr} {g : Port} {b : Pin} {p : Pull} {r : Option Result} {k : Nat}
    (h : s.inputStep i g b p r k = .next t) (hg : g.toNat = groupOf i)
    (hw : ∀ q, q = .pincfg b ∨ q = .dirclr → writesReg i q) (hl : lastMicroStep i ≠ 0) : Effect i s t := by
  match k with
  | 0 => cases h; exact .entered 1 hl
  | 1 => exact .of_writeStep h hg (hw _ (.inl rfl))
  | 2 => exact .of_writeStep h hg (hw _ (.inr rfl))
  | 3 => cases h; exact .left r hl
  | _ + 4 => cases h

theorem cfgpStep_next {g : Port} {b : Pin} {f : FuncSel} {p : Pull} {k : Nat}
    (h : s.cfgpStep (.cfgp g b f p) g b f p k = .next t) : Effect (.cfgp g b f p) s t := by
  match k with
  | 0 => cases h; exact .entered _ (Nat.succ_ne_zero 3)
  | 1 =>
    simp only [State.cfgpStep] at h
    split at h
    · next v u hr =>
      obtain ⟨hg, hr⟩ := State.memRead_addr hr
      cases hr; cases h
      rw [lowByte_zeroExtend]
      exact .readMux g b f p rfl hg
    · obtain ⟨e, -, rfl⟩ := State.reject_next h
      exact .refused e
  | 2 => exact .of_writeStep h rfl (.inl rfl)
  | 3 => exact .of_writeStep h rfl (.inr rfl)
  | 4 => cases h; exact .left none (Nat.succ_ne_zero 3)
  | _ + 5 => cases h

theorem wordStep_next {i : Instr} {g : Port} {b : Pin} {r : Reg} {k : Nat} (h : s.wordStep g b r k = .next t)
    (hg : g.toNat = groupOf i) (hw : writesReg i r) : Effect i s t := by
  match k with
  | 0 => exact .of_writeStep h hg hw
  | _ + 1 => cases h

theorem ireadStep_next {g : Port} {b : Pin} {k : Nat} (h : s.ireadStep g b k = .next t) : Effect (.iread g b) s t := by
  match k with
  | 0 =>
    simp only [State.ireadStep] at h
    split at h
    · next v u hr => cases h; exact .loaded u _ _ (State.memRead_ok hr) (.inl ⟨g, b, rfl⟩)
    · obtain ⟨e, -, rfl⟩ := State.reject_next h
      exact .refused e
  | _ + 1 => cases h

theorem busLoad_next {i : Instr} {g : Nat} {r : Reg} {out : Word → Result} (h : s.busLoad g r out = .next t)
    (hi : (r = .inp ∧ i = .ldwIn g) ∨ (∃ k, r = .pmux k ∧ i = .ldbPmux g k) ∨ ∃ b, r = .pincfg b ∧ i = .ldbPincfg g b) :
    s.live = true ∧ Effect i s t ∧ t.seq = s.seq := by
  obtain ⟨hl, h⟩ := State.unlessStopped_next h
  refine ⟨hl, ?_⟩
  split at h
  · next v u hr =>
    cases h
    obtain ⟨-, hr⟩ := State.memRead_addr hr
    rcases hi with ⟨rfl, rfl⟩ | ⟨k, rfl, rfl⟩ | ⟨b, rfl, rfl⟩
    · cases hr; exact ⟨.loaded _ s.seq _ (.inr rfl) (.inr (.inl ⟨g, rfl⟩)), by simp⟩
    · cases hr; exact ⟨.loaded _ s.seq _ (.inl rfl) (.inr (.inr ⟨.inl ⟨g, k, rfl⟩, rfl⟩)), by simp⟩
    · cases hr; exact ⟨.loaded _ s.seq _ (.inl rfl) (.inr (.inr ⟨.inr ⟨g, b, rfl⟩, rfl⟩)), by simp⟩
  · obtain ⟨e, -, rfl⟩ := State.reject_next h
    exact ⟨.refused e, rfl⟩

/-- A setup command's micro-step: the halt of a pin out of range, at micro-step 0, or the shared sequence. -/
theorem setup_next {i : Instr} {pin : PinId} {c : FatalCode} {rest : Nat → Host.Outcome State Fault Refusal}
    (h : s.sequence i (fun k => if k = 0 ∧ s.badPin pin = true then s.raiseFatal c else rest k) = .next t)
    (hg : (pinPort pin).toNat = groupOf i)
    (hc : (c = .notOutputPin ∧ ∃ pin v, i = .osetup pin v) ∨ (c = .notInputPin ∧ ∃ pin p, i = .isetup pin p)) :
    s.live = true ∧ (Effect i s t ∨ ∃ k, rest k = .next t) := by
  obtain ⟨hl, h⟩ := State.sequence_next h
  refine ⟨hl, ?_⟩
  rcases h with ⟨hs, h⟩ | ⟨k, hs, h⟩
  · split at h
    · next hb =>
      cases h
      exact .inl (.halted c (by rw [← hg]; exact of_decide_eq_true hb.2) hc (.inl hs))
    · exact .inr ⟨0, h⟩
  · split at h
    · next hb =>
      cases h
      exact .inl (.halted c (by rw [← hg]; exact of_decide_eq_true hb.2) hc (.inr (hb.1 ▸ hs)))
    · exact .inr ⟨k, h⟩

/-- The inversion of `exec`: an instruction answers a next state only in a machine that has not stopped, and then does one of
the things `Effect` lists. -/
theorem exec_next {i : Instr} (h : exec i s = .next t) : s.live = true ∧ Effect i s t := by
  cases i with
  | cfgp g b f p =>
    obtain ⟨hl, ⟨-, h⟩ | ⟨k, -, h⟩⟩ := State.sequence_next h <;> exact ⟨hl, cfgpStep_next h⟩
  | osetup pin v =>
    obtain ⟨hl, h | ⟨k, h⟩⟩ := setup_next h rfl (.inl ⟨rfl, pin, v, rfl⟩)
    · exact ⟨hl, h⟩
    · exact ⟨hl, outputStep_next h rfl (fun _ hq => hq) (Nat.succ_ne_zero 3)⟩
  | oreset g b v =>
    obtain ⟨hl, ⟨-, h⟩ | ⟨k, -, h⟩⟩ := State.sequence_next h <;>
      exact ⟨hl, outputStep_next h rfl (fun _ hq => hq) (Nat.succ_ne_zero 3)⟩
  | owrite g b v =>
    obtain ⟨hl, ⟨-, h⟩ | ⟨k, -, h⟩⟩ := State.sequence_next h <;> exact ⟨hl, wordStep_next h rfl rfl⟩
  | otoggle g b =>
    obtain ⟨hl, ⟨-, h⟩ | ⟨k, -, h⟩⟩ := State.sequence_next h <;> exact ⟨hl, wordStep_next h rfl rfl⟩
  | otoggleNoirq g b =>
    obtain ⟨hl, ⟨-, h⟩ | ⟨k, -, h⟩⟩ := State.sequence_next h <;> exact ⟨hl, wordStep_next h rfl rfl⟩
  | isetup pin p =>
    obtain ⟨hl, h | ⟨k, h⟩⟩ := setup_next h rfl (.inr ⟨rfl, pin, p, rfl⟩)
    · exact ⟨hl, h⟩
    · exact ⟨hl, inputStep_next h rfl (fun _ hq => hq) (Nat.succ_ne_zero 2)⟩
  | ireset g b p =>
    obtain ⟨hl, ⟨-, h⟩ | ⟨k, -, h⟩⟩ := State.sequence_next h <;>
      exact ⟨hl, inputStep_next h rfl (fun _ hq => hq) (Nat.succ_ne_zero 2)⟩
  | iread g b =>
    obtain ⟨hl, ⟨-, h⟩ | ⟨k, -, h⟩⟩ := State.sequence_next h <;> exact ⟨hl, ireadStep_next h⟩
  | stwDirclr g v =>
    have := Effect.of_busStore (i := .stwDirclr g v) h rfl rfl; exact ⟨this.1, this.2.1⟩
  | stwDirset g v =>
    have := Effect.of_busStore (i := .stwDirset g v) h rfl rfl; exact ⟨this.1, this.2.1⟩
  | stwOutclr g v =>
    have := Effect.of_busStore (i := .stwOutclr g v) h rfl rfl; exact ⟨this.1, this.2.1⟩
  | stwOutset g v =>
    have := Effect.of_busStore (i := .stwOutset g v) h rfl rfl; exact ⟨this.1, this.2.1⟩
  | stwOuttgl g v =>
    have := Effect.of_busStore (i := .stwOuttgl g v) h rfl rfl; exact ⟨this.1, this.2.1⟩
  | stbPmux g k v =>
    have := Effect.of_busStore (i := .stbPmux g k v) h rfl rfl; exact ⟨this.1, this.2.1⟩
  | stbPincfg g b v =>
    have := Effect.of_busStore (i := .stbPincfg g b v) h rfl rfl; exact ⟨this.1, this.2.1⟩
  | ldwIn g =>
    have := busLoad_next h (.inl ⟨rfl, rfl⟩); exact ⟨this.1, this.2.1⟩
  | ldbPmux g k =>
    have := busLoad_next h (.inr (.inl ⟨k, rfl, rfl⟩)); exact ⟨this.1, this.2.1⟩
  | ldbPincfg g b =>
    have := busLoad_next h (.inr (.inr ⟨b, rfl, rfl⟩)); exact ⟨this.1, this.2.1⟩

end Sys2Proof.Machine
end

