-- ==== Sys2Proof/Laws/PerInstr.lean ====
section
/-! SUPPORT. Statements for all instructions, one lemma per constructor. -/

namespace Sys2Proof.Laws.TableRow

/-- The bits of a well-formed instruction satisfy the opcode table's row of its own mnemonic (30_encoding.md R88, R92). -/
def Statement (i : Instr) : Prop :=
  ∀ c : Config, WellFormed c i = true →
    ∃ row ∈ commandRows ++ accessRows, row.mnemonic = i.mnemonic ∧ tableBits i &&& row.mask = row.fixed

/-- A command: its word against the row of its opcode. -/
theorem command {i : Instr} {w : Word} (op : Opcode) (row : TableRow) (hrow : row ∈ commandRows ++ accessRows)
    (hname : row.mnemonic = i.mnemonic) (hbits : tableBits i = w.toNat) (hmask : row.mask = op.mask.toNat)
    (hfixed : row.fixed = op.matchBits.toNat) (h : w &&& op.mask = op.matchBits) :
    ∃ row ∈ commandRows ++ accessRows, row.mnemonic = i.mnemonic ∧ tableBits i &&& row.mask = row.fixed :=
  ⟨row, hrow, hname, by rw [hbits, hmask, hfixed, ← BitVec.toNat_and, h]⟩

/-- A direct access to a byte register: every offset of its range against the row. -/
theorem pmuxRow (write : Bool) (k : Pair) :
    (descriptorOf write (.pmux k)).toNat &&& 0x1F0 = if write then 0x130 else 0x030 := by
  revert write k; decide

theorem pincfgRow (write : Bool) (b : Pin) :
    (descriptorOf write (.pincfg b)).toNat &&& 0x1E0 = if write then 0x140 else 0x040 := by
  revert write b; decide

theorem cfgp (g : Port) (b : Pin) (f : FuncSel) (p : Pull) : Statement (.cfgp g b f p) := by
  intro c hw
  simp only [WellFormed, Bool.and_eq_true] at hw
  refine command .cfgp ⟨"CFGP", 32, 0x10000000, 0xFB000000⟩ (by decide) rfl rfl (by decide) (by decide)
    (formatC_and_mask _ _ _ _ _ (by simp) (by simp) ?_ (by simp))
  intro _ _
  cases p with
  | minus => cases hw.2
  | zero => rfl
  | plus => rfl

theorem osetup (pin : PinId) (v : Bool) : Statement (.osetup pin v) := fun _ _ =>
  command .osetup ⟨"OSETUP", 32, 0x20000000, 0xFDFF0000⟩ (by decide) rfl rfl (by decide) (by decide)
    (formatC_and_mask _ _ _ _ _ (by simp) (by simp) (by simp) (by simp))

theorem oreset (g : Port) (b : Pin) (v : Bool) : Statement (.oreset g b v) := fun _ _ =>
  command .oreset ⟨"ORESET", 32, 0x30000000, 0xFDFF0000⟩ (by decide) rfl rfl (by decide) (by decide)
    (formatC_and_mask _ _ _ _ _ (by simp) (by simp) (by simp) (by simp))

theorem owrite (g : Port) (b : Pin) (v : Bool) : Statement (.owrite g b v) := fun _ _ =>
  command .owrite ⟨"OWRITE", 32, 0x40000000, 0xFDFF0000⟩ (by decide) rfl rfl (by decide) (by decide)
    (formatC_and_mask _ _ _ _ _ (by simp) (by simp) (by simp) (by simp))

theorem otoggle (g : Port) (b : Pin) : Statement (.otoggle g b) := fun _ _ =>
  command .otoggle ⟨"OTOGGLE", 32, 0x50000000, 0xFFFF0000⟩ (by decide) rfl rfl (by decide) (by decide)
    (formatC_and_mask _ _ _ _ _ (by simp) (by simp) (by simp) (by simp))

theorem otoggleNoirq (g : Port) (b : Pin) : Statement (.otoggleNoirq g b) := fun _ _ =>
  command .otoggleNoirq ⟨"OTOGGLE.NOIRQ", 32, 0x60000000, 0xFFFF0000⟩ (by decide) rfl rfl (by decide) (by decide)
    (formatC_and_mask _ _ _ _ _ (by simp) (by simp) (by simp) (by simp))

theorem isetup (pin : PinId) (p : Pull) : Statement (.isetup pin p) := fun _ _ =>
  command .isetup ⟨"ISETUP", 32, 0x70000000, 0xF3FF0000⟩ (by decide) rfl rfl (by decide) (by decide)
    (formatC_and_mask _ _ _ _ _ (by simp) (by simp) (by simp) (by simp))

theorem ireset (g : Port) (b : Pin) (p : Pull) : Statement (.ireset g b p) := fun _ _ =>
  command .ireset ⟨"IRESET", 32, 0x80000000, 0xF3FF0000⟩ (by decide) rfl rfl (by decide) (by decide)
    (formatC_and_mask _ _ _ _ _ (by simp) (by simp) (by simp) (by simp))

theorem iread (g : Port) (b : Pin) : Statement (.iread g b) := fun _ _ =>
  command .iread ⟨"IREAD", 32, 0x90000000, 0xFFFF0000⟩ (by decide) rfl rfl (by decide) (by decide)
    (formatC_and_mask _ _ _ _ _ (by simp) (by simp) (by simp) (by simp))

theorem stwDirclr (g : Nat) (v : Word) : Statement (.stwDirclr g v) := fun _ _ =>
  ⟨⟨"ST.W_DIRCLR", 9, 0x184, 0x1FF⟩, by decide, rfl,
    show (descriptorOf true .dirclr).toNat &&& 0x1FF = 0x184 by decide⟩

theorem stwDirset (g : Nat) (v : Word) : Statement (.stwDirset g v) := fun _ _ =>
  ⟨⟨"ST.W_DIRSET", 9, 0x188, 0x1FF⟩, by decide, rfl,
    show (descriptorOf true .dirset).toNat &&& 0x1FF = 0x188 by decide⟩

theorem stwOutclr (g : Nat) (v : Word) : Statement (.stwOutclr g v) := fun _ _ =>
  ⟨⟨"ST.W_OUTCLR", 9, 0x194, 0x1FF⟩, by decide, rfl,
    show (descriptorOf true .outclr).toNat &&& 0x1FF = 0x194 by decide⟩

theorem stwOutset (g : Nat) (v : Word) : Statement (.stwOutset g v) := fun _ _ =>
  ⟨⟨"ST.W_OUTSET", 9, 0x198, 0x1FF⟩, by decide, rfl,
    show (descriptorOf true .outset).toNat &&& 0x1FF = 0x198 by decide⟩

theorem stwOuttgl (g : Nat) (v : Word) : Statement (.stwOuttgl g v) := fun _ _ =>
  ⟨⟨"ST.W_OUTTGL", 9, 0x19C, 0x1FF⟩, by decide, rfl,
    show (descriptorOf true .outtgl).toNat &&& 0x1FF = 0x19C by decide⟩

theorem ldwIn (g : Nat) : Statement (.ldwIn g) := fun _ _ =>
  ⟨⟨"LD.W_IN", 9, 0x0A0, 0x1FF⟩, by decide, rfl,
    show (descriptorOf false .inp).toNat &&& 0x1FF = 0x0A0 by decide⟩

theorem ldbPmux (g : Nat) (k : Pair) : Statement (.ldbPmux g k) := fun _ _ =>
  ⟨⟨"LD.B_PMUX", 9, 0x030, 0x1F0⟩, by decide, rfl, pmuxRow false k⟩

theorem stbPmux (g : Nat) (k : Pair) (v : Byte) : Statement (.stbPmux g k v) := fun _ _ =>
  ⟨⟨"ST.B_PMUX", 9, 0x130, 0x1F0⟩, by decide, rfl, pmuxRow true k⟩

theorem ldbPincfg (g : Nat) (b : Pin) : Statement (.ldbPincfg g b) := fun _ _ =>
  ⟨⟨"LD.B_PINCFG", 9, 0x040, 0x1E0⟩, by decide, rfl, pincfgRow false b⟩

theorem stbPincfg (g : Nat) (b : Pin) (v : Byte) : Statement (.stbPincfg g b v) := fun _ _ =>
  ⟨⟨"ST.B_PINCFG", 9, 0x140, 0x1E0⟩, by decide, rfl, pincfgRow true b⟩

end Sys2Proof.Laws.TableRow
end

