-- ==== Sys2Proof/Laws/Step.lean ====
section
/-! SUPPORT. What a step can do, said once: the inversions of step, of a step between interrupts, and of issuing a request. -/

namespace Sys2Proof.Machine

variable {s t : State}

/-- A step begins an interrupt context where `IE = 1`, or is one step of the running context, after at most one free value. -/
theorem step_next (h : step s = .next t) :
    s.live = true ∧
      ((s.ie = true ∧ ∃ k c, s.ready[k]? = some c ∧
          t = { s with running := c, preempted := s.running :: s.preempted, ready := s.ready.eraseIdx k,
                       draws := s.draws + 1 }) ∨
        ∃ u, (u = s ∨ u = { s with draws := s.draws + 1 }) ∧ u.proceed = .next t) := by
  obtain ⟨hl, h⟩ := State.unlessStopped_next h
  refine ⟨hl, ?_⟩
  split at h
  · next c rest ha =>
    cases h
    unfold State.arriving at ha
    split at ha
    · next hp =>
      split at ha
      · cases ha
      · next k _ =>
        split at ha
        · cases ha
        · next c' hk =>
          cases ha
          refine .inl ⟨(Bool.and_eq_true _ _ ▸ hp).1, k, c, hk, ?_⟩
          simp [State.polled, hp, State.begin]
    · cases ha
  · exact .inr ⟨_, s.polled_eq, h⟩

/-- Where no interrupt context may begin, a step is one step of the running context. -/
theorem step_eq_proceed (hl : s.live = true) (hp : s.preemptible = false) : step s = s.proceed := by
  have ha : s.arriving = none := by simp [State.arriving, hp]
  have hq : s.polled = s := by simp [State.polled, hp]
  rw [step, State.advance, State.unlessStopped_live hl, ha, hq]

/-- A step of the running context: a micro-step of the command in execution, the end of the context, or its next request. -/
theorem proceed_next (h : s.proceed = .next t) :
    (∃ cmd k, s.seq = .busy cmd k ∧ exec cmd s = .next t) ∨
      (s.seq = .idle ∧
        ((s.running.todo = [] ∧ t = s.finishContext) ∨
          ∃ r rest, s.running.todo = r :: rest ∧ s.issue r rest = .next t)) := by
  unfold State.proceed at h
  split at h
  · next cmd k hs => exact .inl ⟨cmd, k, hs, h⟩
  · next hs =>
    refine .inr ⟨hs, ?_⟩
    split at h
    · next r rest ht => exact .inr ⟨r, rest, ht, h⟩
    · next ht => cases h; exact .inl ⟨ht, rfl⟩

/-- A request is refused, runs the instruction it stands for, or touches only `IE` and the running context. -/
theorem issue_next {r : Request} {rest : List Request} (h : s.issue r rest = .next t) :
    (∃ e, t = { s with refused := some e }) ∨
      (∃ i, decodeRequest s.config r = some (.ok i) ∧ exec i (s.issued rest) = .next t) ∨
      ∃ ie run, t = { s with ie := ie, running := run } := by
  cases r with
  | enter => cases h; exact .inr (.inr ⟨_, _, rfl⟩)
  | setIe v => cases h; exact .inr (.inr ⟨_, _, rfl⟩)
  | exit =>
    simp only [State.issue, State.exitSection] at h
    split at h
    · cases h
    · cases h; exact .inr (.inr ⟨_, _, rfl⟩)
  | command w =>
    simp only [State.issue] at h
    split at h
    · obtain ⟨e, -, rfl⟩ := State.reject_next h; exact .inl ⟨e, rfl⟩
    · next i hd => exact .inr (.inl ⟨i, by simp [decodeRequest, hd], h⟩)
  | bus a =>
    simp only [State.issue] at h
    split at h
    · obtain ⟨e, -, rfl⟩ := State.reject_next h; exact .inl ⟨e, rfl⟩
    · next i hd => exact .inr (.inl ⟨i, by simp [decodeRequest, hd], h⟩)

end Sys2Proof.Machine
end

