-- ==== Sys2Proof/Tests/Slice0.lean ====
section
/-! SUPPORT. The model's own tests: words and vectors of 95_test_vectors.md (V, W, P numbers are its own), and a concrete
witness of the hypotheses of every statement that has some. -/

namespace Sys2Proof.Tests

open Sys2Proof Sys2Proof.Machine Sys2Proof.Claims

/-! ## Small states -/

/-- The parameters of 95_test_vectors.md section 0. -/
def cfg : Config := Config.launch

/-- The machine after reset with `IE = 1`, as the vectors start. -/
def base : State := { State.reset with ie := true }

/-- `base` with group `g` changed. -/
def withGroup (g : Nat) (f : Group → Group) : State := { base with groups := base.groups.modify g f }

/-- A state that executes `cmd` at its micro-step `k`, guarded, with `IE` saved as 1. -/
def during (s : State) (cmd : Instr) (k : Nat) : State := { s with seq := .busy cmd k, ie := false, token := true }

/-- A state whose main context issues `todo`. -/
def issuing (s : State) (todo : List Request) : State := { s with running := { s.running with todo := todo } }

/-- The next state of an outcome; of a stop, the state given. -/
def nextOr (s : State) : Host.Outcome State Fault Refusal → State
  | .next t => t
  | _ => s

/-- The state after one micro-step or access of `i`. -/
def after (i : Instr) (s : State) : State := nextOr base (exec i s)

/-- A bus access by group and offset. -/
def access (write : Bool) (size g off : Nat) (data : Word) : Access := ⟨write, size, regAddr cfg.portBase g off, data⟩

/-! ## Well-formedness refuses each ill-formed term -/

theorem test_wf_cfgp_port : WellFormed cfg (.cfgp 4 0 .gpio .zero) = false := by decide
theorem test_wf_cfgp_letter : WellFormed cfg (.cfgp 0 0 (.letter 8) .zero) = false := by decide
theorem test_wf_cfgp_pull : WellFormed cfg (.cfgp 0 0 .gpio .minus) = false := by decide
theorem test_wf_cfgp_last : WellFormed cfg (.cfgp 3 31 (.letter 7) .plus) = true := by decide
theorem test_wf_oreset : WellFormed cfg (.oreset 4 0 true) = false := by decide
theorem test_wf_owrite : WellFormed cfg (.owrite 4 0 true) = false := by decide
theorem test_wf_otoggle : WellFormed cfg (.otoggle 4 0) = false := by decide
theorem test_wf_otoggleNoirq : WellFormed cfg (.otoggleNoirq 4 0) = false := by decide
theorem test_wf_ireset : WellFormed cfg (.ireset 4 0 .zero) = false := by decide
theorem test_wf_iread : WellFormed cfg (.iread 4 0) = false := by decide
/-- A setup command's pin is not a decode check (R201): any pin is well formed. -/
theorem test_wf_setup : WellFormed cfg (.osetup 128 true) = true ∧ WellFormed cfg (.isetup 0xFFFF .minus) = true := by decide
theorem test_wf_stw : WellFormed cfg (.stwDirclr 4 0) = false ∧ WellFormed cfg (.stwDirset 4 0) = false ∧
    WellFormed cfg (.stwOutclr 4 0) = false ∧ WellFormed cfg (.stwOutset 4 0) = false ∧
    WellFormed cfg (.stwOuttgl 4 0) = false := by decide
theorem test_wf_loads : WellFormed cfg (.ldwIn 4) = false ∧ WellFormed cfg (.ldbPmux 4 0) = false ∧
    WellFormed cfg (.ldbPincfg 4 0) = false := by decide
theorem test_wf_stbPmux : WellFormed cfg (.stbPmux 4 0 0) = false ∧ WellFormed cfg (.stbPmux 0 0 0x08) = false ∧
    WellFormed cfg (.stbPmux 0 0 0x80) = false ∧ WellFormed cfg (.stbPmux 0 0 0x77) = true := by decide
theorem test_wf_stbPincfg : WellFormed cfg (.stbPincfg 4 0 0) = false ∧ WellFormed cfg (.stbPincfg 0 0 0x02) = false ∧
    WellFormed cfg (.stbPincfg 0 0 0x05) = true := by decide

/-! ## Decoding: words written out field by field from R81 and R82: OP PULL VAL RSVD FSEL PORT BIT -/

theorem test_decode_cfgp :
    decodeWord cfg 0b0001_01_0_0_01000011_00000000000_00101 = .ok (.cfgp 0 5 (.letter 2) .plus) := by decide
theorem test_decode_cfgp_none : decodeWord cfg 0x10000005 = .ok (.cfgp 0 5 .gpio .zero) := by decide
theorem test_decode_cfgp_last : decodeWord cfg 0x1048007F = .ok (.cfgp 3 31 (.letter 7) .zero) := by decide
theorem test_decode_osetup : decodeWord cfg 0b0010_00_1_0_00000000_0000000000000101 = .ok (.osetup 5 true) := by decide
theorem test_decode_osetup_any_pin : decodeWord cfg 0x22000080 = .ok (.osetup 128 true) := by decide
theorem test_decode_oreset : decodeWord cfg 0b0011_00_1_0_00000000_00000000000_00101 = .ok (.oreset 0 5 true) := by decide
theorem test_decode_owrite : decodeWord cfg 0b0100_00_1_0_00000000_00000000001_00011 = .ok (.owrite 1 3 true) := by decide
theorem test_decode_otoggle : decodeWord cfg 0b0101_00_0_0_00000000_00000000000_00101 = .ok (.otoggle 0 5) := by decide
theorem test_decode_otoggleNoirq :
    decodeWord cfg 0b0110_00_0_0_00000000_00000000000_00101 = .ok (.otoggleNoirq 0 5) := by decide
theorem test_decode_isetup : decodeWord cfg 0b0111_01_0_0_00000000_0000000000100101 = .ok (.isetup 37 .plus) := by decide
theorem test_decode_isetup_minus : decodeWord cfg 0x7C000025 = .ok (.isetup 37 .minus) := by decide
theorem test_decode_ireset :
    decodeWord cfg 0b1000_11_0_0_00000000_00000000010_11111 = .ok (.ireset 2 31 .minus) := by decide
theorem test_decode_iread : decodeWord cfg 0b1001_00_0_0_00000000_00000000001_00101 = .ok (.iread 1 5) := by decide

/-- The refused words of sections 2.1 to 2.3 and 2.5, with the first failing check of R87. -/
theorem test_decode_reserved_opcode : decodeWord cfg 0x00000000 = .error .reservedOpcode ∧
    decodeWord cfg 0xA0000000 = .error .reservedOpcode ∧ decodeWord cfg 0xF0000005 = .error .reservedOpcode := by decide
theorem test_decode_reserved_field : decodeWord cfg 0x1C430005 = .error .reservedField ∧
    decodeWord cfg 0x12430005 = .error .reservedField ∧ decodeWord cfg 0x46000023 = .error .reservedField ∧
    decodeWord cfg 0x52000005 = .error .reservedField ∧ decodeWord cfg 0x22410005 = .error .reservedField ∧
    decodeWord cfg 0x21000005 = .error .reservedField ∧ decodeWord cfg 0x23000080 = .error .reservedField ∧
    decodeWord cfg 0x90410005 = .error .reservedField ∧ decodeWord cfg 0x11490005 = .error .reservedField := by decide
theorem test_decode_reserved_pull : decodeWord cfg 0x78000025 = .error .reservedPull ∧
    decodeWord cfg 0x78000080 = .error .reservedPull := by decide
theorem test_decode_bad_function : decodeWord cfg 0x10490005 = .error .badFunction ∧
    decodeWord cfg 0x10400005 = .error .badFunction ∧ decodeWord cfg 0x10490080 = .error .badFunction := by decide
theorem test_decode_bad_handle : decodeWord cfg 0x10410080 = .error .badHandle ∧
    decodeWord cfg 0x30000080 = .error .badHandle := by decide

/-- Bus accesses of section 2.4, by group and offset. -/
theorem test_decode_stores :
    decodeAccess cfg (access true 4 0 0x04 0x0F) = .ok (.stwDirclr 0 0x0F) ∧
    decodeAccess cfg (access true 4 0 0x08 0x0F) = .ok (.stwDirset 0 0x0F) ∧
    decodeAccess cfg (access true 4 1 0x14 0x80000000) = .ok (.stwOutclr 1 0x80000000) ∧
    decodeAccess cfg (access true 4 1 0x18 0x100) = .ok (.stwOutset 1 0x100) ∧
    decodeAccess cfg (access true 4 0 0x1C 0x11) = .ok (.stwOuttgl 0 0x11) := by decide
theorem test_decode_load_in : decodeAccess cfg (access false 4 0 0x20 0) = .ok (.ldwIn 0) := by decide
theorem test_decode_bytes :
    decodeAccess cfg (access false 1 0 0x32 0) = .ok (.ldbPmux 0 2) ∧
    decodeAccess cfg (access true 1 0 0x32 0x53) = .ok (.stbPmux 0 2 0x53) ∧
    decodeAccess cfg (access false 1 1 0x45 0) = .ok (.ldbPincfg 1 5) ∧
    decodeAccess cfg (access true 1 0 0x45 0x01) = .ok (.stbPincfg 0 5 0x01) := by decide
theorem test_decode_access_direction :
    decodeAccess cfg (access false 4 0 0x08 0) = .error (.refuse .busAccess) ∧
    decodeAccess cfg (access true 4 0 0x20 0) = .error (.refuse .busAccess) := by decide
theorem test_decode_access_width :
    decodeAccess cfg (access false 1 0 0x21 0) = .error (.refuse .busAccess) ∧
    decodeAccess cfg (access true 4 0 0x30 0) = .error (.refuse .busAccess) := by decide
theorem test_decode_access_value :
    decodeAccess cfg (access true 1 0 0x32 0x98) = .error (.refuse .busAccess) ∧
    decodeAccess cfg (access true 1 0 0x45 0x02) = .error (.refuse .busAccess) := by decide
theorem test_decode_access_offset :
    decodeAccess cfg (access true 4 0 0x00 0) = .error (.refuse .busAccess) ∧
    decodeAccess cfg (access false 1 0 0x60 0) = .error (.refuse .busAccess) ∧
    decodeAccess cfg (access false 4 4 0x20 0) = .error (.refuse .busAccess) := by decide
theorem test_decode_access_outside :
    decodeAccess { cfg with portBase := 0x80 } ⟨false, 4, 0x20, 0⟩ = .error (.outside 0x20) := by decide

/-- The descriptors of R92, through the table's numbering. -/
theorem test_table_words :
    decodeTableWord 16 0x184 = some (.stwDirclr 0 0) ∧ decodeTableWord 16 0x188 = some (.stwDirset 0 0) ∧
    decodeTableWord 16 0x194 = some (.stwOutclr 0 0) ∧ decodeTableWord 16 0x198 = some (.stwOutset 0 0) ∧
    decodeTableWord 16 0x0A0 = some (.ldwIn 0) ∧ decodeTableWord 16 0x032 = some (.ldbPmux 0 2) ∧
    decodeTableWord 16 0x13F = some (.stbPmux 0 15 0) ∧ decodeTableWord 16 0x045 = some (.ldbPincfg 0 5) ∧
    decodeTableWord 16 0x15F = some (.stbPincfg 0 31 0) ∧ decodeTableWord 16 0x088 = none ∧
    decodeTableWord 16 0x384 = none ∧ decodeTableWord 32 0x60000005 = some (.otoggleNoirq 0 5) := by decide

/-- The placed instruction is what the next step runs, from reset: OTOGGLE 0.5. -/
theorem test_withFetchWord :
    ((nextOr base (step (State.reset.withFetchWord 32 0x50000005))).group 0).out = 0x20 := by decide

/-- R93's text of two instructions and R94's expansions. -/
theorem test_asm : asmText (.cfgp 0 5 (.letter 2) .plus) = "cfgp 0.5, 'C', +1" ∧ asmText (.ldwIn 0) = "ld.w 0:IN" := by
  decide
theorem test_pseudo : (Pseudo.oset 1 3).expand = .owrite 1 3 true ∧ (Pseudo.oclr 1 3).expand = .owrite 1 3 false ∧
    (Pseudo.osetupPin 1 5 true).expand = .osetup 37 true ∧ (Pseudo.isetupPin 1 5 .plus).expand = .isetup 37 .plus := by decide

/-! ## One step of each instruction -/

/-- V2, step 2: `nibble_insert(0x53, 1, 2) = 0x23`. -/
theorem test_cfgp_step2 :
    ((after (.cfgp 0 5 (.letter 2) .plus)
      { during base (.cfgp 0 5 (.letter 2) .plus) 2 with tmp := 0x53 }).group 0).pmuxAt 2 = 0x23 := by decide
/-- V3: "none" goes from step 0 to step 3, which writes PULLEN alone. -/
theorem test_cfgp_none : (after (.cfgp 0 5 .gpio .plus) base).seq = .busy (.cfgp 0 5 .gpio .plus) 3 ∧
    ((after (.cfgp 0 5 .gpio .plus) (during base (.cfgp 0 5 .gpio .plus) 3)).group 0).pincfgAt 5 = 0x04 := by decide

/-- W1, step 1, and V11's handle at step 4. -/
theorem test_osetup_step1 : ((after (.osetup 5 true) (during base (.osetup 5 true) 1)).group 0).out = 0x20 := by decide
theorem test_osetup_handle :
    (after (.osetup 127 true) (during base (.osetup 127 true) 4)).delivered = [⟨0, .handle 3 0x80000000⟩] := by decide

/-- V12: a pin out of range halts, with `IE` not yet saved. -/
theorem test_osetup_halts : exec (.osetup 128 true) base = .next { base with halt := some .notOutputPin } := by rfl

/-- V14, step 3; V15: `IE = 0` before is `IE = 0` at the end. -/
theorem test_oreset_step3 :
    ((after (.oreset 0 5 false)
      (during (withGroup 0 fun grp => grp.setPincfg 5 0x04) (.oreset 0 5 false) 3)).group 0).pincfgAt 5 = 0x00 := by decide
theorem test_oreset_end :
    (after (.oreset 0 5 false) { during base (.oreset 0 5 false) 4 with token := false }).ie = false := by decide

/-- V16, V17. -/
theorem test_owrite_set : ((after (.owrite 1 3 true) base).group 1).out = 0x08 := by decide
theorem test_owrite_clear :
    ((after (.owrite 1 3 false) (withGroup 1 fun grp => { grp with out := 0x08 })).group 1).out = 0 := by decide

/-- V19, V20. -/
theorem test_otoggle : ((after (.otoggle 0 5) (withGroup 0 fun grp => { grp with out := 0x20 })).group 0).out = 0 := by decide
theorem test_otoggleNoirq : ((after (.otoggleNoirq 0 5) base).group 0).out = 0x20 := by decide

/-- W2, step 1; V29. -/
theorem test_isetup_step1 :
    ((after (.isetup 37 .plus) (during base (.isetup 37 .plus) 1)).group 1).pincfgAt 5 = 0x04 := by decide
theorem test_isetup_halts : exec (.isetup 128 .zero) base = .next { base with halt := some .notInputPin } := by rfl

/-- V24, step 2; V25: after step 1 the stale latch drives. -/
theorem test_ireset_step2 :
    ((after (.ireset 2 31 .minus)
      (during (withGroup 2 fun grp => { grp with dir := 0xC0000000 }) (.ireset 2 31 .minus) 2)).group 2).dir
      = 0x40000000 := by decide
theorem test_ireset_stale :
    ((after (.ireset 0 5 .plus)
      (during (withGroup 0 fun grp => { grp.setPincfg 5 0x01 with dir := 0x20, out := 0x20 }) (.ireset 0 5 .plus) 1)).group
        0).drive 5 = .driven true := by decide

/-- V26: a plain output reads its latch, whatever the draw. -/
theorem test_iread :
    exec (.iread 0 5) (withGroup 0 fun grp => { grp with dir := 0x20 }) =
      .next { withGroup 0 (fun grp => { grp with dir := 0x20 }) with delivered := [⟨0, .level false⟩], draws := 1 } := by
  simp only [exec, execIread]
  rw [State.sequence_idle (by rfl) (by rfl), State.ireadStep, State.memRead_inp (by decide)]
  simp only [and_pinMask_ne_zero, Group.inWord_getLsbD]
  rfl

/-- V31 to V35. -/
theorem test_stwDirclr :
    ((after (.stwDirclr 0 0x0F) (withGroup 0 fun grp => { grp with dir := 0xFF })).group 0).dir = 0xF0 := by decide
theorem test_stwDirset :
    ((after (.stwDirset 0 0x0F) (withGroup 0 fun grp => { grp with dir := 0xF0 })).group 0).dir = 0xFF := by decide
theorem test_stwOutclr :
    ((after (.stwOutclr 1 0x80000000) (withGroup 1 fun grp => { grp with out := 0x80000001 })).group 1).out = 1 := by decide
theorem test_stwOutset :
    ((after (.stwOutset 1 0x100) (withGroup 1 fun grp => { grp with out := 1 })).group 1).out = 0x101 := by decide
theorem test_stwOuttgl :
    ((after (.stwOuttgl 0 0x11) (withGroup 0 fun grp => { grp with out := 0x0F })).group 0).out = 0x1E := by decide

/-- V36: bits 15 to 0 of the input word are the latch of 16 plain outputs, whatever the draw. -/
theorem test_ldwIn (env : Word) (b : Pin) (hb : b.toNat < 16) :
    (Group.inWord { Group.zero with dir := 0x0000FFFF, out := 0xA5 } true env).getLsbD b.toNat
      = (0x00A5#32).getLsbD b.toNat := by
  rw [Group.inWord_getLsbD]
  have h : ∀ b : Pin, b.toNat < 16 → (0x0000FFFF#32).getLsbD b.toNat = true ∧
      Group.muxen { Group.zero with dir := 0x0000FFFF, out := 0xA5 } b = false := by decide
  obtain ⟨h1, h2⟩ := h b hb
  simp only [Group.level, h2]
  exact if_pos (by rw [show (0x0000FFFF : Word).getLsbD b.toNat = true from h1]; rfl)

/-- V37 to V40. -/
theorem test_ldbPmux :
    (after (.ldbPmux 0 2) (withGroup 0 fun grp => grp.setPmux 2 0x23)).delivered = [⟨0, .byte 0x23⟩] := by decide
theorem test_stbPmux : ((after (.stbPmux 0 2 0x53) base).group 0).pmuxAt 2 = 0x53 := by decide
theorem test_ldbPincfg :
    (after (.ldbPincfg 1 5) (withGroup 1 fun grp => grp.setPincfg 5 0x04)).delivered = [⟨0, .byte 0x04⟩] := by decide
theorem test_stbPincfg :
    ((after (.stbPincfg 0 5 0x01) (withGroup 0 fun grp => grp.setPmux 2 0x53)).group 0).drive 5 = .periph 5 := by decide

/-! ## Refusals and the halt -/

/-- Section 2.5: a refused word sets the mark and nothing else; it stays unissued. -/
theorem test_refuse : step (issuing base [.command 0x11490005]) =
    .next { issuing base [.command 0x11490005] with refused := some .reservedField } := by rfl
/-- The mark ends the run; the halt is absorbing (R203, R207). -/
theorem test_marked : step { base with refused := some .badHandle } = .refused (.marked .badHandle) := by rfl
theorem test_halted : step { base with halt := some .notInputPin } = .fault (.halted .notInputPin) := by rfl

/-! ## Witnesses: a state and operands that meet the hypotheses of each statement, and of each of its clauses -/

theorem zero_legal : Group.Legal 8 Group.zero := ⟨by decide, by decide⟩

theorem base_legal : base.RegsLegal := fun grp h => by
  rw [List.eq_of_mem_replicate (h : grp ∈ List.replicate 4 Group.zero)]; exact zero_legal

theorem base_inv : base.Inv := ⟨by decide, base_legal, trivial, fun _ => rfl⟩

theorem base_accepting : Accepting base := ⟨rfl, rfl⟩

/-- `base` with its main context's requests meets the invariant too. -/
theorem issuing_inv (todo : List Request) : (issuing base todo).Inv := ⟨rfl, base_legal, trivial, fun _ => rfl⟩

/-- `base` on its way through CFGP 0.5, 'C', +1, about to write the multiplexer byte. -/
def inCfgp : State := during base (.cfgp 0 5 (.letter 2) .plus) 2

theorem inCfgp_inv : inCfgp.Inv := by
  refine ⟨by decide, base_legal, ⟨by decide, rfl, by decide, by decide, ?_⟩, fun _ => ?_⟩
  · intro g b f p h; cases h; exact ⟨fun h => (nomatch h), fun _ _ => rfl⟩
  · contradiction

theorem test_witness_DecodeOfEncode : WellFormed cfg (.cfgp 3 31 (.letter 7) .plus) = true := by decide
theorem test_witness_DecodedIsWellFormed : cfg.numFuncs ≤ 16 ∧
    decodeRequest cfg (.command 0x14430005) = some (.ok (.cfgp 0 5 (.letter 2) .plus)) ∧
    decodeRequest cfg (.bus (access true 1 3 0x5F 0x05)) = some (.ok (.stbPincfg 3 31 0x05)) := by decide
theorem test_witness_EncodeOfDecodedWord : cfg.numFuncs ≤ 16 ∧ decodeWord cfg 0x14430005 = .ok (.cfgp 0 5 (.letter 2) .plus) :=
  by decide
theorem test_witness_DecodeChecksInOrder : Accepting (issuing base [.command 0x1C430005]) ∧
    Undisturbed (issuing base [.command 0x1C430005]) ∧ firstFailing cfg 0x1C430005 = some .reservedField ∧
    firstFailing cfg 0x00000000 = some .reservedOpcode ∧ firstFailing cfg 0xA0000000 = some .reservedOpcode ∧
    firstFailing cfg 0x78000080 = some .reservedPull ∧ firstFailing cfg 0x10490080 = some .badFunction ∧
    firstFailing cfg 0x10410080 = some .badHandle ∧ firstFailing cfg 0x1048007F = none :=
  ⟨⟨rfl, rfl⟩, rfl, by decide⟩
/-- Both clauses, at both ends of the byte arrays and of the groups. -/
theorem test_witness_BusAccessRefusals : ∀ a : Access,
    Accepting (issuing base [.bus a]) ∧ Undisturbed (issuing base [.bus a]) ∧ (issuing base [.bus a]).running.todo = [.bus a] ∧
    AdmittedAt cfg (access false 1 3 0x30 0) 3 0x30 ∧ AdmittedAt cfg (access true 1 3 0x5F 0x05) 3 0x5F ∧
    ¬AdmittedAt cfg (access false 1 3 0x2F 0) 3 0x2F ∧ ¬AdmittedAt cfg (access false 1 3 0x60 0) 3 0x60 ∧
    ¬AdmittedAt cfg (access false 4 4 0x20 0) 4 0x20 :=
  fun _ => ⟨⟨rfl, rfl⟩, rfl, rfl, by unfold AdmittedAt; decide, by unfold AdmittedAt; decide, by unfold AdmittedAt; decide,
    by unfold AdmittedAt; decide, by unfold AdmittedAt; decide⟩
/-- For DirectionStores, OutputStores, LoadInputWord and the reads of ByteRegisterAccesses. -/
theorem test_witness_DirectionStores : base.live = true ∧ 3 < base.groups.length := by decide
theorem test_witness_OutputStores : base.live = true ∧ 0 < base.groups.length := by decide
theorem test_witness_LoadInputWord : base.live = true ∧ 3 < base.groups.length := by decide
theorem test_witness_ByteRegisterAccesses : base.live = true ∧ 3 < base.groups.length ∧
    (0x77#8).toNat % 16 < base.numFuncs ∧ (0x77#8).toNat / 16 < base.numFuncs := by decide
theorem test_witness_DirectAccessRefused : base.live = true ∧ base.groups.length ≤ 4 ∧
    base.numFuncs ≤ (0x08#8).toNat % 16 ∧ base.numFuncs ≤ (0x80#8).toNat / 16 ∧ (0x02#8) &&& 0xFA ≠ 0 := by decide
theorem test_witness_OwriteEffect : Accepting base ∧ (3 : Port).toNat < base.groups.length := ⟨base_accepting, by decide⟩
theorem test_witness_OtoggleEffect : Accepting base ∧ (0 : Port).toNat < base.groups.length := ⟨base_accepting, by decide⟩
theorem test_witness_IreadEffect : Accepting base ∧ (3 : Port).toNat < base.groups.length := ⟨base_accepting, by decide⟩
theorem test_witness_OresetMicroSteps : Accepting base ∧ (3 : Port).toNat < base.groups.length := ⟨base_accepting, by decide⟩
theorem test_witness_IresetMicroSteps : Accepting base ∧ (2 : Port).toNat < base.groups.length := ⟨base_accepting, by decide⟩
theorem test_witness_OsetupMicroSteps : Accepting base ∧ (127 : PinId).toNat / 32 < base.groups.length :=
  ⟨base_accepting, by decide⟩
theorem test_witness_IsetupMicroSteps : Accepting base ∧ (127 : PinId).toNat / 32 < base.groups.length :=
  ⟨base_accepting, by decide⟩
theorem test_witness_CfgpFunctionMicroSteps : Accepting base ∧ (3 : Port).toNat < base.groups.length ∧
    (7 : BitVec 4).toNat < base.numFuncs ∧ Pull.plus ≠ .minus ∧
    pmuxLegal base.numFuncs ((base.group 3).pmuxAt (pinPair 31)) = true := ⟨base_accepting, by decide⟩
theorem test_witness_CfgpNoneMicroSteps : Accepting base ∧ (3 : Port).toNat < base.groups.length ∧ Pull.zero ≠ .minus :=
  ⟨base_accepting, by decide⟩
theorem test_witness_BadPinHalts : Accepting base ∧ base.groups.length ≤ (128 : PinId).toNat / 32 :=
  ⟨base_accepting, by decide⟩
theorem test_witness_CommandsComplete : Accepting base ∧ WellFormed base.config (.cfgp 3 31 (.letter 7) .plus) = true ∧
    groupOf (.cfgp 3 31 (.letter 7) .plus) < base.groups.length ∧ base.RegsLegal ∧
    0 < 1 ∧ 1 < microSteps (.cfgp 3 31 (.letter 7) .plus) := ⟨base_accepting, by decide, by decide, base_legal, by decide⟩
theorem test_witness_CfgpFootprint : Accepting base ∧ base.RegsLegal ∧
    WellFormed base.config (.cfgp 0 4 (.letter 1) .zero) = true ∧ WellFormed base.config (.cfgp 0 4 .gpio .zero) = true :=
  ⟨base_accepting, base_legal, by decide, by decide⟩
theorem test_witness_OutputGlitchFree : Accepting base ∧ (0 : Port).toNat < base.groups.length ∧
    (Instr.osetup (pinOf 0 5) true = .oreset 0 5 true ∨ Instr.osetup (pinOf 0 5) true = .osetup (pinOf 0 5) true) :=
  ⟨base_accepting, by decide, .inr rfl⟩
/-- V25's start. -/
theorem test_witness_InputPathDrivesStaleLatch :
    let s := withGroup 0 fun grp => { grp.setPincfg 5 0x01 with dir := 0x20, out := 0x20 }
    Accepting s ∧ (0 : Port).toNat < s.groups.length ∧ (s.group 0).muxen 5 = true ∧
      (s.group 0).dir.getLsbD (5 : Pin).toNat = true := ⟨⟨rfl, rfl⟩, by decide, by decide, by decide⟩
theorem test_witness_TogglesCancel : Accepting base ∧ (0 : Port).toNat < base.groups.length := ⟨base_accepting, by decide⟩
theorem test_witness_OutputLoopsBack : Accepting base ∧ (127 : PinId).toNat / 32 < base.groups.length ∧
    base.loopbackExact = true := ⟨base_accepting, by decide, rfl⟩
/-- One group, set and toggled in bits that do not overlap. -/
theorem test_witness_DisjointWritesCommute : base.live = true ∧ 0 < base.groups.length ∧ BitRegister .outset ∧
    BitRegister .outtgl ∧ (0x8 : Word) &&& 0x10 = 0 :=
  ⟨rfl, by decide, .inr (.inr (.inr (.inl rfl))), .inr (.inr (.inr (.inr rfl))), by decide⟩
/-- For each register a next state of an instruction that does not write it. -/
theorem test_witness_RegisterWriters :
    exec (.owrite 0 5 true) base = .next (base.writeReg 0 .outset 0x20) ∧ mayWriteDir (.owrite 0 5 true) = false ∧
      mayWritePincfg (.owrite 0 5 true) = false ∧ mayWritePmux (.owrite 0 5 true) = false ∧
      mayWriteOut (.stwDirset 0 1) = false ∧ exec (.stwDirset 0 1) base = .next (base.writeReg 0 .dirset 1) :=
  ⟨rfl, rfl, rfl, rfl, rfl, rfl⟩
theorem test_witness_GroupsIndependent : exec (.owrite 0 5 true) base = .next (base.writeReg 0 .outset 0x20) ∧
    3 ≠ groupOf (.owrite 0 5 true) := ⟨rfl, by decide⟩
theorem test_witness_CommandsTouchOnePin : base.Inv ∧ target (.owrite 0 5 true) = some (0, 5) ∧
    exec (.owrite 0 5 true) base = .next (base.writeReg 0 .outset 0x20) ∧ ((0, 4) : Nat × Pin) ≠ (0, 5) :=
  ⟨base_inv, rfl, rfl, by decide⟩
theorem test_witness_OtherStateUnchanged : exec (.owrite 0 5 true) base = .next (base.writeReg 0 .outset 0x20) ∧
    guarded (.owrite 0 5 true) = false ∧ exec (.stwDirset 0 1) base = .next (base.writeReg 0 .dirset 1) ∧
    target (.stwDirset 0 1) = none := ⟨rfl, rfl, rfl, rfl⟩
/-- P5: OSETUP 128, 1 halts; and a halted machine. -/
theorem test_witness_HaltDiscipline : (issuing base [.command 0x22000080]).Inv ∧
    step (issuing base [.command 0x22000080]) = .next { base with halt := some .notOutputPin } ∧
    ({ base with halt := some .notInputPin } : State).halt = some .notInputPin ∧
    ({ base with halt := some .notInputPin } : State).refused = none := ⟨issuing_inv _, by rfl, rfl, rfl⟩
theorem test_witness_RefusedDiscipline : (issuing base [.command 0x11490005]).Inv ∧
    step (issuing base [.command 0x11490005]) =
      .next { issuing base [.command 0x11490005] with refused := some .reservedField } ∧
    ({ base with refused := some .busAccess } : State).refused = some .busAccess := ⟨issuing_inv _, by rfl, rfl⟩
theorem test_witness_BusySequencerAcceptsNothing : inCfgp.live = true ∧
    inCfgp.seq = .busy (.cfgp 0 5 (.letter 2) .plus) 2 ∧ (target (.owrite 0 5 true)).isSome = true ∧
    Instr.owrite 0 5 true ≠ .cfgp 0 5 (.letter 2) .plus := by decide
theorem test_witness_StepRunsDecodedInstruction :
    let s := issuing base [.command 0x50000005]
    Accepting s ∧ Undisturbed s ∧ s.running.todo = [.command 0x50000005] ∧
      decodeRequest s.config (.command 0x50000005) = some (.ok (.otoggle 0 5)) := ⟨⟨rfl, rfl⟩, rfl, rfl, by decide⟩
theorem test_witness_StepRunsBusyCommand : inCfgp.live = true ∧ Undisturbed inCfgp ∧
    inCfgp.seq = .busy (.cfgp 0 5 (.letter 2) .plus) 2 := ⟨rfl, rfl, rfl⟩
theorem test_witness_AccessOutsideWindows :
    let s := { issuing base [.bus ⟨false, 4, 0x7F, 0⟩] with portBase := 0x80 }
    Accepting s ∧ Undisturbed s ∧ s.running.todo = [.bus ⟨false, 4, 0x7F, 0⟩] ∧ 0x7F < s.portBase :=
  ⟨⟨rfl, rfl⟩, rfl, rfl, by decide⟩
theorem test_witness_CriticalSections : Accepting (issuing base [.enter]) ∧ Undisturbed (issuing base [.enter]) ∧
    (issuing base [.enter]).running.todo = [.enter] ∧
    (let s := { base with running := ⟨0, [.exit], [true]⟩ };
      Accepting s ∧ Undisturbed s ∧ s.running.todo = [.exit] ∧ s.running.tokens = [true]) ∧
    Accepting (issuing base [.setIe false]) ∧ (issuing base [.setIe false]).running.todo = [.setIe false] :=
  ⟨⟨rfl, rfl⟩, rfl, rfl, ⟨⟨rfl, rfl⟩, rfl, rfl, rfl⟩, ⟨rfl, rfl⟩, rfl⟩
theorem test_witness_ContextEnds : Accepting base ∧ Undisturbed base ∧ base.running.todo = [] ∧ base.preempted = [] ∧
    (let s := { base with preempted := [⟨0, [], []⟩] };
      Accepting s ∧ Undisturbed s ∧ s.running.todo = [] ∧ s.preempted = [⟨0, [], []⟩]) :=
  ⟨⟨rfl, rfl⟩, rfl, rfl, rfl, ⟨rfl, rfl⟩, rfl, rfl, rfl⟩
theorem test_witness_InterruptsBeginWhereEnabled :
    (let s := { base with ie := false, ready := [⟨1, [.command 0x60000004], []⟩] };
      s.ie = false ∧ step s = .next s) ∧
    (let s := { base with ready := [⟨1, [.command 0x60000004], []⟩] };
      s.live = true ∧ s.ie = true ∧ s.ready ≠ []) := ⟨⟨rfl, by rfl⟩, rfl, rfl, by decide⟩
theorem test_witness_GuardExcludesContexts :
    let s := { during base (.oreset 0 5 true) 4 with ready := [⟨1, [], []⟩] }
    s.seq = .busy (.oreset 0 5 true) 4 ∧ s.ie = false ∧ step s = .next (ended { s with ie := true } s) :=
  ⟨rfl, rfl, by rfl⟩
theorem test_witness_InvariantKept : inCfgp.Inv ∧
    step inCfgp = .next { inCfgp.writeReg 0 (.pmux 2) 0x20 with seq := .busy (.cfgp 0 5 (.letter 2) .plus) 3 } :=
  ⟨inCfgp_inv, by rfl⟩
theorem test_witness_InvariantAtReset : cfg.wf = true ∧ (List.replicate 4 Group.zero).length = cfg.numPorts ∧
    ∀ grp ∈ List.replicate 4 Group.zero, grp.Legal cfg.numFuncs :=
  ⟨by decide, rfl, fun grp h => by rw [List.eq_of_mem_replicate h]; exact zero_legal⟩
/-- A good end from which a step is taken: only a critical section is left to open. -/
theorem test_witness_GoodEndLasts : (issuing base [.enter]).goodEnd = true ∧ (issuing base [.enter]).ready = [] ∧
    step (issuing base [.enter]) = .next { base with ie := false, running := ⟨0, [], [true]⟩ } := ⟨by decide, rfl, by rfl⟩
theorem test_witness_ParametersNeverChange : step base = .next base := by rfl

end Sys2Proof.Tests
end

section
/-! PROOFS. The pure helpers of 00_scope.md: the decomposition of a pin identifier (R12) and the nibble helper (R14). -/

namespace Sys2Proof.Machine

open Sys2Proof

/-! ## The decomposition of a pin identifier -/

theorem pinPort_toNat (pin : PinId) : (pinPort pin).toNat = pin.toNat / 32 := by
  have hfit : pin.toNat / 32 < 2 ^ 11 := by omega
  rw [pinPort, BitVec.extractLsb'_toNat, Nat.shiftRight_eq_div_pow, Nat.mod_eq_of_lt hfit]

theorem pinBit_toNat (pin : PinId) : (pinBit pin).toNat = pin.toNat % 32 := by
  rw [pinBit, BitVec.extractLsb'_toNat, Nat.shiftRight_zero]

/-- The PORT and BIT fields of a pin identifier lie next to each other and fill it (R86). -/
theorem pinOf_pinPort_pinBit (pin : PinId) : pinOf (pinPort pin) (pinBit pin) = pin :=
  BitVec.extractLsb'_append_extractLsb' (w := 11) (len := 5)

/-- Settles O8: the fields are the quotient and the remainder by 32, and appending them gives the identifier back. -/
theorem pinDecomposition : Obligations.PinDecomposition := fun pin =>
  ⟨pinPort_toNat pin, pinBit_toNat pin, pinOf_pinPort_pinBit pin⟩

/-! ## The nibble helper: a byte is its high nibble before its low one, and an insertion replaces one of the two -/

@[simp] theorem nibble_append_odd (hi lo : BitVec 4) : nibble (hi ++ lo) true = hi :=
  BitVec.extractLsb'_append_eq_left

@[simp] theorem nibble_append_even (hi lo : BitVec 4) : nibble (hi ++ lo) false = lo :=
  BitVec.extractLsb'_append_eq_right

theorem nibbles_append (v : Byte) : nibble v true ++ nibble v false = v :=
  BitVec.extractLsb'_append_extractLsb' (w := 4) (len := 4)

theorem zeroExtend_eq_append (val : BitVec 4) : val.zeroExtend 8 = 0#4 ++ val :=
  BitVec.setWidth_eq_append (by decide)

theorem zeroExtend_shiftLeft_eq_append (val : BitVec 4) : val.zeroExtend 8 <<< 4 = val ++ 0#4 := by
  simpa using (BitVec.setWidth_append_eq_shiftLeft_setWidth_or (b := val) (b' := 0#4) (w'' := 8)).symm

/-- The low mask of R14 keeps the low nibble. -/
theorem and_lowMask (v : Byte) : v &&& 0x0F#8 = 0#4 ++ nibble v false := by
  calc v &&& 0x0F#8 = (nibble v true ++ nibble v false) &&& (0#4 ++ BitVec.allOnes 4) := by
        rw [nibbles_append]; rfl
    _ = 0#4 ++ nibble v false := by rw [BitVec.and_append, BitVec.and_zero, BitVec.and_allOnes]

/-- The high mask of R14 keeps the high nibble. -/
theorem and_highMask (v : Byte) : v &&& 0xF0#8 = nibble v true ++ 0#4 := by
  calc v &&& 0xF0#8 = (nibble v true ++ nibble v false) &&& (BitVec.allOnes 4 ++ 0#4) := by
        rw [nibbles_append]; rfl
    _ = nibble v true ++ 0#4 := by rw [BitVec.and_append, BitVec.and_zero, BitVec.and_allOnes]

theorem nibbleInsert_odd (old : Byte) (val : BitVec 4) : nibbleInsert old true val = val ++ nibble old false := by
  calc nibbleInsert old true val = (old &&& 0x0F#8) ||| (val.zeroExtend 8 <<< 4) := rfl
    _ = (0#4 ++ nibble old false) ||| (val ++ 0#4) := by rw [and_lowMask, zeroExtend_shiftLeft_eq_append]
    _ = val ++ nibble old false := by rw [BitVec.or_append, BitVec.zero_or, BitVec.or_zero]

theorem nibbleInsert_even (old : Byte) (val : BitVec 4) : nibbleInsert old false val = nibble old true ++ val := by
  calc nibbleInsert old false val = (old &&& 0xF0#8) ||| val.zeroExtend 8 := rfl
    _ = (nibble old true ++ 0#4) ||| (0#4 ++ val) := by rw [and_highMask, zeroExtend_eq_append]
    _ = nibble old true ++ val := by rw [BitVec.or_append, BitVec.zero_or, BitVec.or_zero]

theorem nibble_nibbleInsert_same (old : Byte) (odd : Bool) (val : BitVec 4) :
    nibble (nibbleInsert old odd val) odd = val := by
  cases odd with
  | false => rw [nibbleInsert_even, nibble_append_even]
  | true => rw [nibbleInsert_odd, nibble_append_odd]

theorem nibble_nibbleInsert_other (old : Byte) (odd : Bool) (val : BitVec 4) :
    nibble (nibbleInsert old odd val) (!odd) = nibble old (!odd) := by
  cases odd with
  | false => rw [nibbleInsert_even, Bool.not_false, nibble_append_odd]
  | true => rw [nibbleInsert_odd, Bool.not_true, nibble_append_even]

/-- Settles O9, by the two cases of the half selected. -/
theorem nibbleInsertChangesOneNibble : Obligations.NibbleInsertChangesOneNibble := fun old odd val =>
  ⟨nibble_nibbleInsert_same old odd val, nibble_nibbleInsert_other old odd val, by cases odd <;> rfl⟩

end Sys2Proof.Machine
end

section
/-! PROOFS. Rules for a step and for an instruction: what the status stops, what a sequencer accepts, which part of the state
an instruction leaves as it is (10_state.md R20, R31, R33, R35 to R39, R42). -/

namespace Sys2Proof.Machine

open Sys2Proof Sys2Proof.Claims

variable {s t u : State} {i : Instr}

/-! ## What the status stops -/

theorem State.live_iff : s.live = true ↔ s.halt = none ∧ s.refused = none := by
  simp [State.live, Option.isNone_iff_eq_none]

/-- The machine is live by `HALT` and `REFUSED` alone. -/
theorem State.live_congr (hh : t.halt = s.halt) (hr : t.refused = s.refused) : t.live = s.live := by
  simp [State.live, hh, hr]

theorem State.unlessStopped_refused {r : RefuseReason} (h : s.refused = some r)
    (act : Host.Outcome State Fault Refusal) : s.unlessStopped act = .refused (.marked r) := by
  simp [State.unlessStopped, h]

theorem State.unlessStopped_halted {c : FatalCode} (hh : s.halt = some c) (hr : s.refused = none)
    (act : Host.Outcome State Fault Refusal) : s.unlessStopped act = .fault (.halted c) := by
  simp [State.unlessStopped, hh, hr]

/-- Every instruction is guarded by the status (R38, R39). -/
theorem exec_unlessStopped (i : Instr) (s : State) : ∃ act, exec i s = s.unlessStopped act := by
  cases i <;> exact ⟨_, rfl⟩

/-! ## Commands and the sequencer -/

/-- The micro-steps of a command, by number; a direct access has none. -/
def State.microStep (s : State) : Instr → Nat → Host.Outcome State Fault Refusal
  | .cfgp g b f p => s.cfgpStep (.cfgp g b f p) g b f p
  | .osetup pin v => fun k =>
    if k = 0 ∧ s.badPin pin = true then s.raiseFatal .notOutputPin
    else s.outputStep (.osetup pin v) (pinPort pin) (pinBit pin) v (some (handleOf pin)) k
  | .oreset g b v => s.outputStep (.oreset g b v) g b v none
  | .owrite g b v => s.wordStep g b (levelReg v)
  | .otoggle g b => s.wordStep g b .outtgl
  | .otoggleNoirq g b => s.wordStep g b .outtgl
  | .isetup pin p => fun k =>
    if k = 0 ∧ s.badPin pin = true then s.raiseFatal .notInputPin
    else s.inputStep (.isetup pin p) (pinPort pin) (pinBit pin) p (some (handleOf pin)) k
  | .ireset g b p => s.inputStep (.ireset g b p) g b p none
  | .iread g b => s.ireadStep g b
  | _ => fun _ => .fault .noSuchStep

/-- Past its pin check OSETUP runs ORESET's micro-steps (R131). -/
theorem State.microStep_osetup {k : Nat} (hk : k ≠ 0) (pin : PinId) (v : Bool) :
    s.microStep (.osetup pin v) k =
      s.outputStep (.osetup pin v) (pinPort pin) (pinBit pin) v (some (handleOf pin)) k :=
  if_neg fun h => hk h.1

/-- Past its pin check ISETUP runs IRESET's micro-steps (R161). -/
theorem State.microStep_isetup {k : Nat} (hk : k ≠ 0) (pin : PinId) (p : Pull) :
    s.microStep (.isetup pin p) k =
      s.inputStep (.isetup pin p) (pinPort pin) (pinBit pin) p (some (handleOf pin)) k :=
  if_neg fun h => hk h.1

theorem exec_eq_sequence (hi : (target i).isSome = true) (s : State) : exec i s = s.sequence i (s.microStep i) := by
  cases i <;> cases hi <;> rfl

/-- An idle sequencer accepts a command: its micro-step 0 (R36). -/
theorem exec_of_idle (hi : (target i).isSome = true) (hl : s.live = true) (hs : s.seq = .idle) :
    exec i s = s.microStep i 0 := by
  rw [exec_eq_sequence hi, State.sequence_idle hl hs]

/-- A sequencer executing a command goes on at the micro-step it is at (R33). -/
theorem exec_of_busy (hi : (target i).isSome = true) (hl : s.live = true) {k : Nat} (hs : s.seq = .busy i k) :
    exec i s = s.microStep i k := by
  rw [exec_eq_sequence hi, State.sequence_busy hl hs]

/-- A sequencer executing one command has no step for another (R36). -/
theorem State.sequence_other (hl : s.live = true) {cmd : Instr} {k : Nat} (hs : s.seq = .busy cmd k) (hne : i ≠ cmd)
    (micro : Nat → Host.Outcome State Fault Refusal) : s.sequence i micro = .fault .sequencerBusy := by
  rw [State.sequence, State.unlessStopped_live hl, hs]
  exact if_neg hne.symm

/-- Settles O38. -/
theorem busySequencerAcceptsNothing : Obligations.BusySequencerAcceptsNothing := fun s i cmd k hl hs hi hne => by
  rw [exec_eq_sequence hi, State.sequence_other hl hs hne]

/-! ## A step of the running context -/

theorem State.proceed_of_busy {cmd : Instr} {k : Nat} (hs : s.seq = .busy cmd k) : s.proceed = exec cmd s := by
  simp [State.proceed, hs]

theorem State.proceed_of_request {r : Request} {rest : List Request} (hs : s.seq = .idle)
    (ht : s.running.todo = r :: rest) : s.proceed = s.issue r rest := by
  simp [State.proceed, hs, ht]

theorem State.proceed_of_nothing (hs : s.seq = .idle) (ht : s.running.todo = []) : s.proceed = .next s.finishContext := by
  simp [State.proceed, hs, ht]

/-- A request that stands for an instruction is issued by running it. -/
theorem State.issue_of_decoded {r : Request} (hd : decodeRequest s.config r = some (.ok i)) (rest : List Request) :
    s.issue r rest = exec i (s.issued rest) := by
  cases r with
  | command w =>
    simp only [decodeRequest] at hd
    split at hd
    · next hw => cases hd; simp only [State.issue, hw]
    · cases hd
  | bus a =>
    have hw : decodeAccess s.config a = .ok i := Option.some.inj hd
    simp only [State.issue, hw]
  | enter => cases hd
  | exit => cases hd
  | setIe v => cases hd

/-- Settles O40. -/
theorem stepRunsBusyCommand : Obligations.StepRunsBusyCommand := fun s cmd k hl hu hs => by
  rw [step_eq_proceed hl hu, State.proceed_of_busy hs]

/-- Settles O39. -/
theorem stepRunsDecodedInstruction : Obligations.StepRunsDecodedInstruction := fun s r rest i ⟨hl, hs⟩ hu ht hd => by
  rw [step_eq_proceed hl hu, State.proceed_of_request hs ht, State.issue_of_decoded hd]
  rfl

/-- Settles O42: each of the three requests is issued, and touches `IE` and the tokens of its context alone. -/
theorem criticalSections : Obligations.CriticalSections := fun s rest ⟨hl, hs⟩ hu => by
  have issues {r : Request} (ht : s.running.todo = r :: rest) : step s = s.issue r rest := by
    rw [step_eq_proceed hl hu, State.proceed_of_request hs ht]
  refine ⟨issues, fun t ts ht hts => ?_, fun v => issues⟩
  rw [issues ht]
  simp [State.issue, State.exitSection, State.issued, hts]

/-- Settles O43, by the two cases of the contexts preempted. -/
theorem contextEnds : Obligations.ContextEnds := fun s ⟨hl, hs⟩ hu ht => by
  have ends : step s = .next s.finishContext := by rw [step_eq_proceed hl hu, State.proceed_of_nothing hs ht]
  refine ⟨fun c rest hp => ?_, fun hp => ?_⟩
  · rw [ends]; simp only [State.finishContext, hp]
  · rw [ends]; simp only [State.finishContext, hp]

/-! ## What an instruction leaves as it is -/

theorem Effect.config (h : Effect i s t) : t.config = s.config := by
  cases h with
  | wrote r v q => exact s.writeReg_config _ r v
  | left r => exact State.deliver_config _ r
  | loaded u q r hu => rw [State.deliver_config]; rcases hu with rfl | rfl <;> rfl
  | entered => rfl
  | readMux => rfl
  | refused => rfl
  | halted => rfl

/-- Settles O33. -/
theorem groupsIndependent : Obligations.GroupsIndependent := fun i s t h => by
  obtain ⟨-, he⟩ := exec_next h
  refine ⟨he.length, fun g hg => ?_⟩
  rcases he.group g with hsame | ⟨r, v, -, hown, -⟩
  · exact hsame
  · exact absurd hown hg

theorem State.finishContext_config (s : State) : s.finishContext.config = s.config := by
  obtain ⟨-, he⟩ | ⟨c, rest, -, he⟩ := s.finishContext_eq
  · rw [he]
  · rw [he]; rfl

theorem issue_config {r : Request} {rest : List Request} (h : s.issue r rest = .next t) : t.config = s.config := by
  obtain ⟨e, rfl⟩ | ⟨i, -, h⟩ | ⟨ie, run, rfl⟩ := issue_next h
  · rfl
  · exact (exec_next h).2.config
  · rfl

theorem proceed_config (h : s.proceed = .next t) : t.config = s.config := by
  obtain ⟨cmd, k, -, h⟩ | ⟨-, ⟨-, rfl⟩ | ⟨r, rest, -, h⟩⟩ := proceed_next h
  · exact (exec_next h).2.config
  · exact s.finishContext_config
  · exact issue_config h

/-- Settles O48: an interrupt that begins changes the contexts alone, and a step of the running context keeps the parameters. -/
theorem parametersNeverChange : Obligations.ParametersNeverChange := fun s t h => by
  obtain ⟨-, ⟨-, k, c, -, rfl⟩ | ⟨u, hu, h⟩⟩ := step_next h
  · rfl
  · rw [proceed_config h]
    rcases hu with rfl | rfl <;> rfl

/-! ## The input word -/

/-- The input word is not written, whatever the width (20_memory.md R62). -/
theorem State.memWrite_inp (s : State) (g n : Nat) (v : Word) :
    s.memWrite (s.addr g Reg.inp.offset) n v = .error (.refuse .busAccess) := by
  have hr : resolve s.config { write := true, size := n, addr := s.addr g Reg.inp.offset, data := v } = _ :=
    resolve_reg s.config true n g .inp v
  simp only [Access.fits, Reg.writable, Bool.false_and, Bool.and_false, if_true, Bool.false_eq_true, if_false] at hr
  simp only [State.memWrite, hr]

/-- A direct read of a register that may be read delivers its value. -/
theorem State.busLoad_ok (hl : s.live = true) {g : Nat} (hg : g < s.groups.length) {r : Reg} {v : Word}
    (hr : s.readReg g r = some (v, u)) (out : Word → Result) :
    s.busLoad g r out = .next (u.deliver (some (out v))) := by
  simp only [State.busLoad, State.unlessStopped_live hl, State.memRead_reg, hr, if_pos hg]

/-- A direct write of a value the register takes writes it. -/
theorem State.busStore_ok (hl : s.live = true) {g : Nat} (hg : g < s.groups.length) {r : Reg} {v : Word}
    (hr : r.writable = true) (ha : r.accepts s.numFuncs v = true) : s.busStore g r v = .next (s.writeReg g r v) := by
  simp [State.busStore, State.unlessStopped_live hl, State.memWrite_reg, hg, hr, ha]

/-- LD.W IN delivers the input word of its group and uses a free value (R185, R55). -/
theorem exec_ldwIn (hl : s.live = true) {g : Nat} (hg : g < s.groups.length) :
    exec (.ldwIn g) s = .next ({ s with draws := s.draws + 1 }.deliver
      (some (.word ((s.group g).inWord s.loopbackExact (Config.pinLevels s.draws))))) :=
  State.busLoad_ok (r := .inp) hl hg rfl .word

/-- Settles O13: the word read is the input word of the group, whose bits are the levels of its pins. -/
theorem loadInputWord : Obligations.LoadInputWord := fun s g hl hg => by
  refine ⟨s.memWrite_inp g, _, exec_ldwIn hl hg, fun b => ?_⟩
  rw [Group.inWord_getLsbD]
  simp [Group.level, Group.muxen, and_assoc]

end Sys2Proof.Machine
end

section
/-! PROOFS. What the decoder answers is well formed, and only a command word stands for a command (30_encoding.md R87,
20_memory.md R62). -/

namespace Sys2Proof

open Sys2Proof.Machine Sys2Proof.Claims

/-- A selector that is read has a letter that exists (R85). -/
theorem FuncSel.wf_of_ofBits {c : Config} (hn : c.numFuncs ≤ 16) {b : BitVec 8} {f : FuncSel}
    (h : FuncSel.ofBits c.numFuncs b = some f) : f.wf c = true := by
  unfold FuncSel.ofBits at h
  split at h
  · cases h; rfl
  · split at h
    · next hb =>
      cases h
      have hsub : (b - 0x41).toNat = b.toNat - 0x41 := BitVec.toNat_sub_of_le hb.1
      have hlow : ((b - 0x41).extractLsb' 0 4).toNat = b.toNat - 0x41 := by
        rw [BitVec.extractLsb'_toNat, hsub]; omega
      exact decide_eq_true (by rw [hlow]; omega)
    · cases h

/-- The operands of a command that pass the checks of R87 are admitted. -/
theorem decodeOperands_wellFormed {c : Config} (hn : c.numFuncs ≤ 16) {w : Word} {op : Opcode} {i : Instr}
    (h : decodeOperands c w op = .ok i) : WellFormed c i = true := by
  cases op with
  | cfgp =>
    simp only [decodeOperands] at h
    split at h
    · cases h
    · next f hf =>
      obtain ⟨hg, rfl⟩ := checkHandle_ok h
      have hwf := FuncSel.wf_of_ofBits hn (checkFunc_ok hf)
      have hp : (if w.getLsbD 26 then Pull.plus else Pull.zero) ≠ .minus := by split <;> decide
      simpa only [WellFormed, hg, hwf, decide_true, Bool.true_and, bne_iff_ne] using hp
  | osetup => cases h; rfl
  | isetup =>
    simp only [decodeOperands] at h
    split at h
    · cases h
    · cases h; rfl
  | ireset =>
    simp only [decodeOperands] at h
    split at h
    · cases h
    · obtain ⟨hg, rfl⟩ := checkHandle_ok h; exact decide_eq_true hg
  | oreset => obtain ⟨hg, rfl⟩ := checkHandle_ok h; exact decide_eq_true hg
  | owrite => obtain ⟨hg, rfl⟩ := checkHandle_ok h; exact decide_eq_true hg
  | otoggle => obtain ⟨hg, rfl⟩ := checkHandle_ok h; exact decide_eq_true hg
  | otoggleNoirq => obtain ⟨hg, rfl⟩ := checkHandle_ok h; exact decide_eq_true hg
  | iread => obtain ⟨hg, rfl⟩ := checkHandle_ok h; exact decide_eq_true hg

/-- An access that its register takes is an instruction with admitted operands (R62). -/
theorem accessInstr_wellFormed {c : Config} {a : Access} {g : Nat} {r : Reg} (h : a.fits c g r = true) :
    WellFormed c (accessInstr a.write g a.data r) = true := by
  simp only [Access.fits, Bool.and_eq_true] at h
  obtain ⟨⟨hg, -⟩, ha⟩ := h
  cases r with
  | pmux k =>
    cases hw : a.write with
    | true => rw [hw] at ha; exact Bool.and_eq_true_iff.mpr ⟨hg, ha⟩
    | false => exact hg
  | pincfg b =>
    cases hw : a.write with
    | true => rw [hw] at ha; exact Bool.and_eq_true_iff.mpr ⟨hg, ha⟩
    | false => exact hg
  | _ => exact hg

theorem decodeAccess_ok {c : Config} {a : Access} {i : Instr} (h : decodeAccess c a = .ok i) :
    ∃ g r, a.fits c g r = true ∧ i = accessInstr a.write g a.data r := by
  unfold decodeAccess at h
  split at h
  · cases h
  · next g r hr =>
    obtain ⟨-, -, -, hf⟩ := resolve_ok hr
    cases h; exact ⟨g, r, hf, rfl⟩

/-- What a request that decodes is: a command word, or a bus access. -/
theorem decodeRequest_ok {c : Config} {r : Request} {i : Instr} (h : decodeRequest c r = some (.ok i)) :
    (∃ w, r = .command w ∧ decodeWord c w = .ok i) ∨ ∃ a, r = .bus a ∧ decodeAccess c a = .ok i := by
  cases r with
  | command w =>
    simp only [decodeRequest] at h
    split at h
    · next hw => cases h; exact .inl ⟨w, rfl, hw⟩
    · cases h
  | bus a => exact .inr ⟨a, rfl, Option.some.inj h⟩
  | enter => cases h
  | exit => cases h
  | setIe v => cases h

/-- The decoder answers only well-formed instructions (R87, R62). -/
theorem decodeRequest_wellFormed {c : Config} (hn : c.numFuncs ≤ 16) {r : Request} {i : Instr}
    (h : decodeRequest c r = some (.ok i)) : WellFormed c i = true := by
  rcases decodeRequest_ok h with ⟨w, -, hw⟩ | ⟨a, -, ha⟩
  · obtain ⟨op, -, -, ho⟩ := decodeWord_ok hw
    exact decodeOperands_wellFormed hn ho
  · obtain ⟨g, r, hf, rfl⟩ := decodeAccess_ok ha
    exact accessInstr_wellFormed hf

/-- An access acts on no pin: it is no command (43_bus_access.md R190). -/
theorem target_accessInstr (write : Bool) (g : Nat) (v : Word) (r : Reg) : target (accessInstr write g v r) = none := by
  cases r <;> cases write <;> rfl

/-- A command comes from a command word alone. -/
theorem decodeWord_of_target {c : Config} {r : Request} {i : Instr} (h : decodeRequest c r = some (.ok i))
    (hi : (target i).isSome = true) : ∃ w, r = .command w ∧ decodeWord c w = .ok i := by
  rcases decodeRequest_ok h with hw | ⟨a, -, ha⟩
  · exact hw
  · obtain ⟨g, r, -, rfl⟩ := decodeAccess_ok ha
    rw [target_accessInstr] at hi; cases hi

end Sys2Proof
end

section
/-! PROOFS. What an instruction does in a machine that may run it, said whole: when it is accepted, and when its command is in
execution (10_state.md R33, R36, R37). No such micro-step is refused. -/

namespace Sys2Proof.Machine

open Sys2Proof Sys2Proof.Claims

variable {s t : State} {i : Instr} {g : Port} {b : Pin} {k : Nat}

/-! ## Legal contents -/

/-- A multiplexer byte is legal when both its nibbles are (R26). -/
theorem pmuxLegal_iff {n : Nat} {v : Byte} : pmuxLegal n v = true ↔ ∀ odd, (nibble v odd).toNat < n := by
  rw [Bool.forall_bool]
  simp [pmuxLegal, nibble]

/-- Inserting a legal nibble into a legal byte gives a legal byte (R14). -/
theorem pmuxLegal_nibbleInsert {n : Nat} {old : Byte} {val : BitVec 4} (hold : pmuxLegal n old = true)
    (hval : val.toNat < n) (odd : Bool) : pmuxLegal n (nibbleInsert old odd val) = true := by
  rw [pmuxLegal_iff] at hold ⊢
  intro half
  rcases Bool.eq_or_eq_not half odd with rfl | rfl
  · rw [nibble_nibbleInsert_same]; exact hval
  · rw [nibble_nibbleInsert_other]; exact hold _

/-- A write of a value its register takes keeps a group legal (R61). -/
theorem Group.Legal.write {n : Nat} {grp : Group} (h : grp.Legal n) {r : Reg} {v : Word} (ha : r.accepts n v = true) :
    (grp.write v r).Legal n := by
  cases r with
  | pmux k =>
    refine ⟨h.pincfg, fun l => ?_⟩
    rw [Group.write, Group.pmuxAt_setPmux]
    split
    · exact ha
    · exact h.pmux l
  | pincfg b =>
    refine ⟨fun c => ?_, h.pmux⟩
    rw [Group.write, Group.pincfgAt_setPincfg]
    split
    · exact ha
    · exact h.pincfg c
  | _ => exact ⟨h.pincfg, h.pmux⟩

theorem State.group_of_lt {n : Nat} (hn : n < s.groups.length) : s.group n = s.groups[n] := by
  simp [State.group, hn]

theorem State.regsLegal_iff : s.RegsLegal ↔ ∀ n, n < s.groups.length → (s.group n).Legal s.numFuncs := by
  rw [State.RegsLegal, List.forall_mem_iff_forall_getElem]
  exact forall₂_congr fun n hn => by rw [State.group_of_lt hn]

/-- An instruction keeps every group legal: what it writes, its register takes. -/
theorem Effect.regsLegal (h : Effect i s t) (hs : s.RegsLegal) : t.RegsLegal := by
  rw [State.regsLegal_iff] at hs ⊢
  intro n hn
  rw [show t.numFuncs = s.numFuncs from congrArg Config.numFuncs h.config]
  have hlegal := hs n (h.length ▸ hn)
  rcases h.group n with hsame | ⟨r, v, -, -, -, ha, hwrote⟩
  · rw [hsame]; exact hlegal
  · rw [hwrote]; exact hlegal.write ha

/-! ## An instruction that is accepted -/

@[simp] theorem levelReg_width (v : Bool) : (levelReg v).width = 4 := by cases v <;> rfl
@[simp] theorem levelReg_writable (v : Bool) : (levelReg v).writable = true := by cases v <;> rfl

/-- A micro-step whose write is admitted. -/
theorem State.writeStep_ok {addr n : Nat} {v : Word} (h : s.memWrite addr n v = .ok t) (q : Seq) :
    s.writeStep addr n v q = .next { t with seq := q } := by
  simp only [State.writeStep, h]

/-- The micro-step a guarded command goes on at after its guard: CFGP without a function passes over its multiplexer byte
(R112, R114). -/
def afterGuard : Instr → Nat
  | .cfgp _ _ f _ => if selectsLetter f then 1 else 3
  | _ => 1

/-- The codes of a fatal abort by the setup command that raises it (60_exceptions.md R200). -/
def HaltsWith (i : Instr) (c : FatalCode) : Prop :=
  (c = .notOutputPin ∧ ∃ pin v, i = .osetup pin v) ∨ (c = .notInputPin ∧ ∃ pin p, i = .isetup pin p)

/-- What a well-formed instruction does with an idle sequencer: a guarded command enters its guard, another instruction
completes, and a setup command whose pin is out of range halts. -/
inductive Accepted (i : Instr) (s : State) : Host.Outcome State Fault Refusal → Prop where
  | entered : lastMicroStep i ≠ 0 → groupOf i < s.groups.length →
      Accepted i s (.next { s with token := s.ie, ie := false, seq := .busy i (afterGuard i) })
  | completed (t : State) : t.live = true → t.seq = .idle → Accepted i s (.next t)
  | halted (c : FatalCode) : s.groups.length ≤ groupOf i → HaltsWith i c → Accepted i s (.next { s with halt := some c })

theorem wordStep_accepted (hl : s.live = true) (hg : g.toNat < s.groups.length) {r : Reg} (hw : r.width = 4)
    (hr : r.writable = true) : Accepted i s (s.wordStep g b r 0) := by
  rw [State.wordStep, State.writeStep_ok (State.memWrite_word hg r hw hr _)]
  exact .completed _ hl rfl

theorem ireadStep_accepted (hl : s.live = true) (hg : g.toNat < s.groups.length) : Accepted i s (s.ireadStep g b 0) := by
  rw [State.ireadStep, State.memRead_inp hg]
  exact .completed _ hl rfl

/-- A setup command checks its pin before anything else (R132, R162). -/
theorem setup_accepted {pin : PinId} {c : FatalCode} (hg : groupOf i = (pinPort pin).toNat) (hc : HaltsWith i c)
    {act : Host.Outcome State Fault Refusal} (hact : groupOf i < s.groups.length → Accepted i s act) :
    Accepted i s (if (0 : Nat) = 0 ∧ s.badPin pin = true then s.raiseFatal c else act) := by
  have hbad : s.badPin pin = true ↔ s.groups.length ≤ groupOf i := by rw [hg, State.badPin, decide_eq_true_iff]
  split
  · next h => exact .halted c (hbad.mp h.2) hc
  · next h => exact hact (Nat.lt_of_not_le fun hle => h ⟨rfl, hbad.mpr hle⟩)

theorem busStore_accepted (hl : s.live = true) (hs : s.seq = .idle) {n : Nat} (hg : n < s.groups.length) {r : Reg} {v : Word}
    (hr : r.writable = true) (ha : r.accepts s.numFuncs v = true) : Accepted i s (s.busStore n r v) := by
  rw [State.busStore_ok hl hg hr ha]
  exact .completed _ hl hs

theorem busLoad_accepted (hl : s.live = true) (hs : s.seq = .idle) {n : Nat} (hg : n < s.groups.length) {r : Reg} {v : Word}
    (hr : s.readReg n r = some (v, s)) (out : Word → Result) : Accepted i s (s.busLoad n r out) := by
  rw [State.busLoad_ok hl hg hr]
  exact .completed _ hl hs

/-- With an idle sequencer, a well-formed instruction is accepted. -/
theorem exec_accepted (hl : s.live = true) (hs : s.seq = .idle) (hw : WellFormed s.config i = true) :
    Accepted i s (exec i s) := by
  cases i with
  | cfgp g b f p =>
    rw [exec_of_idle rfl hl hs]
    simp only [WellFormed, Bool.and_eq_true] at hw
    exact .entered (Nat.succ_ne_zero 3) (of_decide_eq_true hw.1.1)
  | osetup pin v =>
    rw [exec_of_idle rfl hl hs]
    exact setup_accepted rfl (.inl ⟨rfl, pin, v, rfl⟩) fun hg => .entered (Nat.succ_ne_zero 3) hg
  | isetup pin p =>
    rw [exec_of_idle rfl hl hs]
    exact setup_accepted rfl (.inr ⟨rfl, pin, p, rfl⟩) fun hg => .entered (Nat.succ_ne_zero 2) hg
  | oreset g b v => rw [exec_of_idle rfl hl hs]; exact .entered (Nat.succ_ne_zero 3) (of_decide_eq_true hw)
  | ireset g b p => rw [exec_of_idle rfl hl hs]; exact .entered (Nat.succ_ne_zero 2) (of_decide_eq_true hw)
  | owrite g b v =>
    rw [exec_of_idle rfl hl hs]
    exact wordStep_accepted hl (of_decide_eq_true hw) (levelReg_width v) (levelReg_writable v)
  | otoggle g b => rw [exec_of_idle rfl hl hs]; exact wordStep_accepted hl (of_decide_eq_true hw) rfl rfl
  | otoggleNoirq g b => rw [exec_of_idle rfl hl hs]; exact wordStep_accepted hl (of_decide_eq_true hw) rfl rfl
  | iread g b => rw [exec_of_idle rfl hl hs]; exact ireadStep_accepted hl (of_decide_eq_true hw)
  | stwDirclr g v => exact busStore_accepted hl hs (of_decide_eq_true hw) rfl rfl
  | stwDirset g v => exact busStore_accepted hl hs (of_decide_eq_true hw) rfl rfl
  | stwOutclr g v => exact busStore_accepted hl hs (of_decide_eq_true hw) rfl rfl
  | stwOutset g v => exact busStore_accepted hl hs (of_decide_eq_true hw) rfl rfl
  | stwOuttgl g v => exact busStore_accepted hl hs (of_decide_eq_true hw) rfl rfl
  | stbPmux g k v =>
    obtain ⟨hg, hv⟩ := Bool.and_eq_true_iff.mp hw
    exact busStore_accepted hl hs (of_decide_eq_true hg) rfl ((congrArg _ (lowByte_zeroExtend v)).trans hv)
  | stbPincfg g b v =>
    obtain ⟨hg, hv⟩ := Bool.and_eq_true_iff.mp hw
    exact busStore_accepted hl hs (of_decide_eq_true hg) rfl ((congrArg _ (lowByte_zeroExtend v)).trans hv)
  | ldwIn g => rw [exec_ldwIn hl (of_decide_eq_true hw)]; exact .completed _ hl hs
  | ldbPmux g k => exact busLoad_accepted (r := .pmux k) hl hs (of_decide_eq_true hw) rfl fun v => .byte (lowByte v)
  | ldbPincfg g b => exact busLoad_accepted (r := .pincfg b) hl hs (of_decide_eq_true hw) rfl fun v => .byte (lowByte v)

/-! ## A command in execution -/

/-- What the micro-step `k` of a guarded command does, inside its guard: it writes one register and goes on at the next, CFGP
reads its multiplexer byte at micro-step 1, and the last leaves the guard. -/
inductive Advanced (i : Instr) (k : Nat) (s : State) : Host.Outcome State Fault Refusal → Prop where
  | wrote (r : Reg) (v : Word) : k < lastMicroStep i → (∀ g b f p, i = .cfgp g b f p → k ≠ 1) →
      Advanced i k s (.next { s.writeReg (groupOf i) r v with seq := .busy i (k + 1) })
  | readMux (g : Port) (b : Pin) (f : FuncSel) (p : Pull) : i = .cfgp g b f p → k = 1 →
      Advanced i k s (.next { s with tmp := (s.group g.toNat).pmuxAt (pinPair b), seq := .busy i 2 })
  | left (r : Option Result) : Advanced i k s (.next ({ s with ie := s.token, seq := .idle }.forget.deliver r))

theorem Advanced.of_write {n w : Nat} {r : Reg} {v : Word} (h : s.memWrite (s.addr n r.offset) w v = .ok (s.writeReg n r v))
    (hn : groupOf i = n) (hk : k < lastMicroStep i) (hc : ∀ g b f p, i = .cfgp g b f p → k ≠ 1) :
    Advanced i k s (s.writeStep (s.addr n r.offset) w v (.busy i (k + 1))) := by
  rw [State.writeStep_ok h, ← hn]
  exact .wrote r v hk hc

theorem outputStep_advanced (hg : g.toNat < s.groups.length) (hi : groupOf i = g.toNat) (hlast : lastMicroStep i = 4)
    (hc : ∀ g b f p, i ≠ .cfgp g b f p) (v : Bool) (r : Option Result) (hk : 1 ≤ k) (hk' : k ≤ 4) :
    Advanced i k s (s.outputStep i g b v r k) := by
  have hc' (k : Nat) : ∀ g b f p, i = .cfgp g b f p → k ≠ 1 := fun g b f p h => absurd h (hc g b f p)
  match k with
  | 1 =>
    exact .of_write (State.memWrite_word hg _ (levelReg_width v) (levelReg_writable v) _) hi (by omega) (hc' 1)
  | 2 => exact .of_write (State.memWrite_word hg .dirset rfl rfl _) hi (by omega) (hc' 2)
  | 3 => exact .of_write (State.memWrite_pincfg hg b (by decide)) hi (by omega) (hc' 3)
  | 4 => exact .left r
  | _ + 5 => omega

theorem inputStep_advanced (hg : g.toNat < s.groups.length) (hi : groupOf i = g.toNat) (hlast : lastMicroStep i = 3)
    (hc : ∀ g b f p, i ≠ .cfgp g b f p) (p : Pull) (r : Option Result) (hk : 1 ≤ k) (hk' : k ≤ 3) :
    Advanced i k s (s.inputStep i g b p r k) := by
  have hc' (k : Nat) : ∀ g b f p, i = .cfgp g b f p → k ≠ 1 := fun g b f p h => absurd h (hc g b f p)
  match k with
  | 1 =>
    have hv : pincfgLegal (lowByte ((pincfgByte false (pullOn p)).zeroExtend 32)) = true := by
      rw [lowByte_zeroExtend]; exact pincfgByte_legal _ _
    exact .of_write (State.memWrite_pincfg hg b hv) hi (by omega) (hc' 1)
  | 2 => exact .of_write (State.memWrite_word hg .dirclr rfl rfl _) hi (by omega) (hc' 2)
  | 3 => exact .left r
  | _ + 4 => omega

/-- CFGP's write of the multiplexer byte needs a legal byte in `TMP` and a function that exists. -/
theorem cfgpStep_advanced {f : FuncSel} {p : Pull} (hg : g.toNat < s.groups.length)
    (hbyte : k = 2 → pmuxLegal s.numFuncs (nibbleInsert s.tmp (pinOdd b) (funcNumber f)) = true) (hk : 1 ≤ k) (hk' : k ≤ 4) :
    Advanced (.cfgp g b f p) k s (s.cfgpStep (.cfgp g b f p) g b f p k) := by
  match k with
  | 1 =>
    rw [State.cfgpStep, State.memRead_pmux hg]
    simp only [lowByte_zeroExtend]
    exact .readMux g b f p rfl rfl
  | 2 =>
    have hv := (congrArg _ (lowByte_zeroExtend _)).trans (hbyte rfl)
    exact .of_write (State.memWrite_pmux hg (pinPair b) hv) rfl (show 2 < 4 by decide) fun _ _ _ _ _ => by decide
  | 3 =>
    have hv : pincfgLegal (lowByte ((pincfgByte (selectsLetter f) (pullOn p)).zeroExtend 32)) = true := by
      rw [lowByte_zeroExtend]; exact pincfgByte_legal _ _
    exact .of_write (State.memWrite_pincfg hg b hv) rfl (show 3 < 4 by decide) fun _ _ _ _ _ => by decide
  | 4 => exact .left none
  | _ + 5 => omega

theorem State.Inv.live_of_busy (h : s.Inv) {cmd : Instr} (hs : s.seq = .busy cmd k) : s.live = true := by
  by_contra hl
  have hidle := h.stopped (Bool.eq_false_iff.mpr hl)
  rw [hs] at hidle; cases hidle

/-- What the invariant says of a command in execution, taken apart. -/
theorem State.SeqLegal.of_busy (h : s.SeqLegal) (hs : s.seq = .busy i k) :
    (1 ≤ k ∧ k ≤ lastMicroStep i) ∧ s.ie = false ∧ WellFormed s.config i = true ∧ groupOf i < s.groups.length ∧
      ∀ g b f p, i = .cfgp g b f p → (selectsLetter f = false → 3 ≤ k) ∧
        (selectsLetter f = true → k = 2 → s.tmp = (s.group g.toNat).pmuxAt (pinPair b)) := by
  rw [State.SeqLegal, hs] at h; exact h

/-- The byte CFGP is about to write is legal where the invariant holds. -/
theorem State.Inv.cfgp_byte_legal (h : s.Inv) {f : FuncSel} {p : Pull} (hs : s.seq = .busy (.cfgp g b f p) 2) :
    pmuxLegal s.numFuncs (nibbleInsert s.tmp (pinOdd b) (funcNumber f)) = true := by
  obtain ⟨-, -, hw, hg, hcfgp⟩ := h.seq.of_busy hs
  obtain ⟨hnone, htmp⟩ := hcfgp g b f p rfl
  cases f with
  | gpio => exact absurd (hnone rfl) (by decide)
  | letter n =>
    simp only [WellFormed, FuncSel.wf, Bool.and_eq_true, decide_eq_true_eq] at hw
    rw [htmp rfl rfl]
    exact pmuxLegal_nibbleInsert ((State.regsLegal_iff.mp h.regs _ hg).pmux _) hw.1.2 _

/-- Where the invariant holds, the command in execution takes its next micro-step. -/
theorem exec_advanced (h : s.Inv) (hs : s.seq = .busy i k) : Advanced i k s (exec i s) := by
  have hl := h.live_of_busy hs
  obtain ⟨⟨hk, hk'⟩, -, -, hg, -⟩ := h.seq.of_busy hs
  cases i with
  | cfgp g b f p =>
    rw [exec_of_busy rfl hl hs]
    exact cfgpStep_advanced hg (fun hk2 => h.cfgp_byte_legal (hk2 ▸ hs)) hk hk'
  | osetup pin v =>
    rw [exec_of_busy rfl hl hs, State.microStep_osetup (Nat.ne_of_gt hk)]
    exact outputStep_advanced hg rfl rfl (fun _ _ _ _ => Instr.noConfusion) v _ hk hk'
  | oreset g b v =>
    rw [exec_of_busy rfl hl hs]
    exact outputStep_advanced hg rfl rfl (fun _ _ _ _ => Instr.noConfusion) v _ hk hk'
  | isetup pin p =>
    rw [exec_of_busy rfl hl hs, State.microStep_isetup (Nat.ne_of_gt hk)]
    exact inputStep_advanced hg rfl rfl (fun _ _ _ _ => Instr.noConfusion) p _ hk hk'
  | ireset g b p =>
    rw [exec_of_busy rfl hl hs]
    exact inputStep_advanced hg rfl rfl (fun _ _ _ _ => Instr.noConfusion) p _ hk hk'
  | _ => exact absurd (hk.trans hk') (Nat.not_succ_le_zero 0)

end Sys2Proof.Machine
end

section
/-! PROOFS. The invariant is kept by every step, and what stops a machine that meets it: a request that decode refuses, or a
setup command whose pin is out of range (10_state.md R33, R36 to R39; 60_exceptions.md R202, R203, R207). -/

namespace Sys2Proof.Machine

open Sys2Proof Sys2Proof.Claims

variable {s t : State} {i : Instr} {k : Nat} {r : Request} {rest : List Request}

/-! ## The invariant over an instruction -/

/-- With an idle sequencer the invariant is about the parameters and the registers alone. -/
theorem State.Inv.of_idle (hc : t.config.wf = true) (hr : t.RegsLegal) (hs : t.seq = .idle) : t.Inv :=
  ⟨hc, hr, by rw [State.SeqLegal, hs]; trivial, fun _ => hs⟩

/-- A live machine that keeps parameters and legal registers meets the invariant when its sequencer is legal. -/
theorem Effect.inv (he : Effect i s t) (h : s.Inv) (hs : t.SeqLegal) (hl : t.live = true) : t.Inv :=
  ⟨he.config ▸ h.config, he.regsLegal h.regs, hs, fun hstop => nomatch hl.symm.trans hstop⟩

theorem Config.numFuncs_le {c : Config} (h : c.wf = true) : c.numFuncs ≤ 16 := by
  simp only [Config.wf, Bool.and_eq_true, decide_eq_true_eq] at h
  omega

theorem afterGuard_le_lastMicroStep (hlast : lastMicroStep i ≠ 0) : 1 ≤ afterGuard i ∧ afterGuard i ≤ lastMicroStep i := by
  cases i with
  | cfgp g b f p => cases f <;> simp [afterGuard, lastMicroStep, selectsLetter]
  | _ => exact ⟨le_rfl, Nat.one_le_iff_ne_zero.mpr hlast⟩

/-- An accepted instruction keeps the invariant: it completes, or enters its guard at a micro-step it has. -/
theorem Accepted.inv (ha : Accepted i s (.next t)) (he : Effect i s t) (h : s.Inv) (hl : s.live = true)
    (hs : s.seq = .idle) (hw : WellFormed s.config i = true) : t.Inv := by
  cases ha with
  | entered hlast hg =>
    refine he.inv h ⟨afterGuard_le_lastMicroStep hlast, rfl, hw, hg, fun g b f p hi => ?_⟩ hl
    subst hi
    cases f with
    | gpio => exact ⟨fun _ => le_rfl, fun hsel => absurd hsel Bool.noConfusion⟩
    | letter n => exact ⟨fun hsel => absurd hsel Bool.noConfusion, fun _ hk => absurd (show 1 = 2 from hk) (by decide)⟩
  | completed _ hlive hidle => exact .of_idle (he.config ▸ h.config) (he.regsLegal h.regs) hidle
  | halted c => exact .of_idle h.config h.regs hs

theorem Advanced.live (ha : Advanced i k s (.next t)) : t.live = s.live := by
  cases ha with
  | wrote | readMux => rfl
  | left r => exact State.live_congr (State.deliver_halt _ r) (State.deliver_refused _ r)

/-- A micro-step keeps the sequencer legal: the next one is one the command has, and CFGP reaches its write of the multiplexer
byte only with that byte in `TMP`. -/
theorem Advanced.seqLegal (ha : Advanced i k s (.next t)) (h : s.SeqLegal) (hs : s.seq = .busy i k) : t.SeqLegal := by
  obtain ⟨-, hie, hw, hg, hcfgp⟩ := h.of_busy hs
  cases ha with
  | wrote r v hk hne =>
    refine ⟨⟨Nat.succ_le_succ (Nat.zero_le k), hk⟩, hie, ?_, ?_, fun g b f p hi => ⟨fun hsel => ?_, fun _ hk2 => ?_⟩⟩
    · exact (s.writeReg_config _ r v).symm ▸ hw
    · exact (s.writeReg_length _ r v).symm ▸ hg
    · exact Nat.le_succ_of_le ((hcfgp g b f p hi).1 hsel)
    · exact absurd (Nat.succ.inj hk2) (hne g b f p hi)
  | readMux g b f p hi hk =>
    subst hi
    refine ⟨⟨by decide, show 2 ≤ 4 by decide⟩, hie, hw, hg, fun g' b' f' p' hi' => ?_⟩
    cases hi'
    exact ⟨fun hsel => absurd ((hcfgp g b f p rfl).1 hsel) (by omega), fun _ _ => rfl⟩
  | left r => rw [State.SeqLegal, State.deliver_seq]; trivial

theorem exec_keeps_inv_of_busy (h : s.Inv) (hs : s.seq = .busy i k) (he : exec i s = .next t) : t.Inv := by
  have ha : Advanced i k s (.next t) := he ▸ exec_advanced h hs
  exact (exec_next he).2.inv h (ha.seqLegal h.seq hs) (ha.live.trans (h.live_of_busy hs))

theorem exec_keeps_inv_of_idle (h : s.Inv) (hs : s.seq = .idle) (hw : WellFormed s.config i = true)
    (he : exec i s = .next t) : t.Inv := by
  obtain ⟨hl, heff⟩ := exec_next he
  have ha : Accepted i s (.next t) := he ▸ exec_accepted hl hs hw
  exact ha.inv heff h hl hs hw

/-! ## The invariant over a step -/

theorem State.Inv.issued (h : s.Inv) (rest : List Request) : (s.issued rest).Inv :=
  ⟨h.config, h.regs, h.seq, h.stopped⟩

theorem State.Inv.addDraw (h : s.Inv) : State.Inv { s with draws := s.draws + 1 } :=
  ⟨h.config, h.regs, h.seq, h.stopped⟩

theorem State.Inv.decoded_wellFormed (h : s.Inv) (hd : decodeRequest s.config r = some (.ok i)) :
    WellFormed s.config i = true :=
  decodeRequest_wellFormed (Config.numFuncs_le h.config) hd

theorem issue_keeps_inv (h : s.Inv) (hs : s.seq = .idle) (hi : s.issue r rest = .next t) : t.Inv := by
  obtain ⟨e, rfl⟩ | ⟨i, hd, he⟩ | ⟨ie, run, rfl⟩ := issue_next hi
  · exact .of_idle h.config h.regs hs
  · exact exec_keeps_inv_of_idle (h.issued rest) hs (h.decoded_wellFormed hd) he
  · exact .of_idle h.config h.regs hs

theorem State.finishContext_live (s : State) : s.finishContext.live = s.live := by
  obtain ⟨-, he⟩ | ⟨c, rest, -, he⟩ := s.finishContext_eq
  · rw [he]
  · rw [he]; rfl

theorem State.Inv.finishContext (h : s.Inv) : s.finishContext.Inv := by
  obtain ⟨-, he⟩ | ⟨c, rest, -, he⟩ := s.finishContext_eq
  · rw [he]; exact h
  · rw [he]; exact ⟨h.config, h.regs, h.seq, h.stopped⟩

theorem proceed_keeps_inv (h : s.Inv) (hp : s.proceed = .next t) : t.Inv := by
  obtain ⟨cmd, k, hs, he⟩ | ⟨hs, ⟨-, rfl⟩ | ⟨r, rest, -, hi⟩⟩ := proceed_next hp
  · exact exec_keeps_inv_of_busy h hs he
  · exact h.finishContext
  · exact issue_keeps_inv h hs hi

/-- Settles O46: an interrupt that begins changes the contexts alone, and each thing the running context can do keeps the
invariant. -/
theorem invariantKept : Obligations.InvariantKept := fun s t h hstep => by
  obtain ⟨-, ⟨-, k, c, -, rfl⟩ | ⟨u, hu, hp⟩⟩ := step_next hstep
  · exact ⟨h.config, h.regs, h.seq, h.stopped⟩
  · rcases hu with rfl | rfl
    · exact proceed_keeps_inv h hp
    · exact proceed_keeps_inv h.addDraw hp

/-! ## What stops a machine -/

/-- A request that decode refuses is rejected with its reason (R87). -/
theorem State.issue_of_rejected {e : Reject} (hd : decodeRequest s.config r = some (.error e)) (rest : List Request) :
    s.issue r rest = s.reject e := by
  cases r with
  | command w =>
    simp only [decodeRequest] at hd
    split at hd
    · cases hd
    · next e' hw => cases hd; simp only [State.issue, hw]
  | bus a =>
    have hw : decodeAccess s.config a = .error e := Option.some.inj hd
    simp only [State.issue, hw]
  | enter => cases hd
  | exit => cases hd
  | setIe v => cases hd

/-- A request that stands for no instruction touches `IE` and the running context alone (R37). -/
theorem issue_of_undecoded (hd : decodeRequest s.config r = none) (hi : s.issue r rest = .next t) :
    ∃ ie run, t = { s with ie := ie, running := run } := by
  cases r with
  | enter => cases hi; exact ⟨_, _, rfl⟩
  | setIe v => cases hi; exact ⟨_, _, rfl⟩
  | exit =>
    simp only [State.issue, State.exitSection] at hi
    split at hi
    · cases hi
    · cases hi; exact ⟨_, _, rfl⟩
  | command w => simp only [decodeRequest] at hd; split at hd <;> cases hd
  | bus a => cases hd

/-- What makes the request `r` of the running context stop a machine: decode refuses it, or it is a setup command whose pin is out
of range. Each leaves its mark and, but for the request issued by the setup command and the count `n` of free values, nothing
else. -/
inductive StoppedBy (s : State) (n : Nat) (r : Request) (rest : List Request) : State → Prop where
  | refused (e : RefuseReason) : decodeRequest s.config r = some (.error (.refuse e)) →
      StoppedBy s n r rest { s with refused := some e, draws := n }
  | halted (i : Instr) (c : FatalCode) : decodeRequest s.config r = some (.ok i) → s.groups.length ≤ groupOf i →
      HaltsWith i c → StoppedBy s n r rest { s.issued rest with halt := some c, draws := n }

/-- The count of free values before the step does not matter. -/
theorem StoppedBy.of_addDraw {n : Nat} (h : StoppedBy { s with draws := s.draws + 1 } n r rest t) : StoppedBy s n r rest t := by
  cases h with
  | refused e hd => exact .refused e hd
  | halted i c hd hg hc => exact .halted i c hd hg hc

theorem issue_stops (h : s.Inv) (hl : s.live = true) (hs : s.seq = .idle) (hi : s.issue r rest = .next t)
    (hstop : t.live = false) : StoppedBy s s.draws r rest t := by
  cases hd : decodeRequest s.config r with
  | none =>
    obtain ⟨ie, run, rfl⟩ := issue_of_undecoded hd hi
    exact nomatch hl.symm.trans hstop
  | some answer =>
    cases answer with
    | error e =>
      rw [State.issue_of_rejected hd] at hi
      obtain ⟨e, rfl, rfl⟩ := State.reject_next hi
      exact .refused e hd
    | ok i =>
      rw [State.issue_of_decoded hd] at hi
      have ha : Accepted i (s.issued rest) (.next t) := hi ▸ exec_accepted hl hs (h.decoded_wellFormed hd)
      cases ha with
      | entered => exact nomatch hl.symm.trans hstop
      | completed _ hlive => exact nomatch hlive.symm.trans hstop
      | halted c hg hc => exact .halted i c hd hg hc

theorem proceed_stops (h : s.Inv) (hl : s.live = true) (hp : s.proceed = .next t) (hstop : t.live = false) :
    s.seq = .idle ∧ ∃ r rest, s.running.todo = r :: rest ∧ StoppedBy s s.draws r rest t := by
  obtain ⟨cmd, k, hs, he⟩ | ⟨hs, ⟨-, rfl⟩ | ⟨r, rest, htodo, hi⟩⟩ := proceed_next hp
  · have ha : Advanced cmd k s (.next t) := he ▸ exec_advanced h hs
    exact nomatch hl.symm.trans (ha.live.symm.trans hstop)
  · exact nomatch hl.symm.trans (s.finishContext_live.symm.trans hstop)
  · exact ⟨hs, r, rest, htodo, issue_stops h hl hs hi hstop⟩

/-- A step that stops a machine issues a request that stops it, after at most one free value. -/
theorem step_stops (h : s.Inv) (hstep : step s = .next t) (hstop : t.live = false) :
    s.live = true ∧ s.seq = .idle ∧ ∃ n r rest, (n = s.draws ∨ n = s.draws + 1) ∧
      s.running.todo = r :: rest ∧ StoppedBy s n r rest t := by
  obtain ⟨hl, ⟨-, k, c, -, rfl⟩ | ⟨u, hu, hp⟩⟩ := step_next hstep
  · exact nomatch hl.symm.trans hstop
  · rcases hu with rfl | rfl
    · obtain ⟨hs, r, rest, htodo, hby⟩ := proceed_stops h hl hp hstop
      exact ⟨hl, hs, _, r, rest, .inl rfl, htodo, hby⟩
    · obtain ⟨hs, r, rest, htodo, hby⟩ := proceed_stops h.addDraw hl hp hstop
      exact ⟨hl, hs, _, r, rest, .inr rfl, htodo, hby.of_addDraw⟩

/-- Only the setup commands halt, and each acts on a pin. -/
theorem HaltsWith.target_isSome {c : FatalCode} (h : HaltsWith i c) : (target i).isSome = true := by
  rcases h with ⟨-, pin, v, rfl⟩ | ⟨-, pin, p, rfl⟩ <;> rfl

/-- Settles O36: of the two ways to stop only the halt of a setup command sets `HALT`, and a halted machine runs nothing. -/
theorem haltDiscipline : Obligations.HaltDiscipline := by
  refine ⟨⟨rfl, rfl, rfl, rfl⟩, fun s t c h hstep hc => ?_, fun s c hh hr => ⟨State.unlessStopped_halted hh hr _, fun i => ?_⟩⟩
  · obtain ⟨hl, hs, n, r, rest, -, htodo, hby⟩ := step_stops h hstep (by simp [State.live, hc])
    obtain ⟨hhalt, -⟩ := State.live_iff.mp hl
    cases hby with
    | refused e => exact nomatch hhalt.symm.trans hc
    | halted i c' hd hg hcode =>
      cases hc
      obtain ⟨w, rfl, hw⟩ := decodeWord_of_target hd hcode.target_isSome
      exact ⟨hhalt, hs, rfl, rfl, rfl, w, rest, i, htodo, hw, hg, hcode⟩
  · obtain ⟨act, ha⟩ := exec_unlessStopped i s
    rw [ha, State.unlessStopped_halted hh hr]

/-- Settles O37: of the two ways to stop only decode's refusal sets `REFUSED`, and a refused machine runs nothing. -/
theorem refusedDiscipline : Obligations.RefusedDiscipline := by
  refine ⟨fun s t e h hstep he => ?_, fun s e he => ⟨State.unlessStopped_refused he _, fun i => ?_⟩⟩
  · obtain ⟨hl, hs, n, r, rest, hn, htodo, hby⟩ := step_stops h hstep (by simp [State.live, he])
    obtain ⟨-, hrefused⟩ := State.live_iff.mp hl
    cases hby with
    | refused e' hd =>
      cases he
      refine ⟨hrefused, ?_, r, rest, htodo, hd⟩
      rcases hn with rfl | rfl
      · exact .inl rfl
      · exact .inr rfl
    | halted => exact nomatch hrefused.symm.trans he
  · obtain ⟨act, ha⟩ := exec_unlessStopped i s
    rw [ha, State.unlessStopped_refused he]

end Sys2Proof.Machine
end

section
/-! PROOFS. The register file under direct accesses: what a write to a bit register makes of each bit, which values a byte
register takes, and what an access that a register does not take leaves (20_memory.md R56 to R62, R69). -/

namespace Sys2Proof.Machine

open Sys2Proof Sys2Proof.Claims

variable {s : State} {g : Nat} {grp : Group} {r q : Reg} {v x y : Word} {n : Nat}

/-! ## Bit registers, bit by bit -/

/-- What a write to a register makes of a direction bit whose value bit is 1 (R56, R57). -/
def writtenDirBit : Reg → Bool → Bool
  | .dirclr, _ => false
  | .dirset, _ => true
  | _, d => d

/-- What a write to a register makes of a latch bit whose value bit is 1 (R58, R59, R60). -/
def writtenOutBit : Reg → Bool → Bool
  | .outclr, _ => false
  | .outset, _ => true
  | .outtgl, d => !d
  | _, d => d

theorem getLsbD_clear (hn : n < 32) (w v : Word) :
    (w &&& ~~~v).getLsbD n = if v.getLsbD n then false else w.getLsbD n := by
  rw [BitVec.getLsbD_and, BitVec.getLsbD_not, decide_eq_true hn]
  cases v.getLsbD n <;> simp

theorem getLsbD_set (w v : Word) (n : Nat) : (w ||| v).getLsbD n = if v.getLsbD n then true else w.getLsbD n := by
  cases h : v.getLsbD n <;> simp [h]

theorem getLsbD_toggle (w v : Word) (n : Nat) :
    (w ^^^ v).getLsbD n = if v.getLsbD n then !w.getLsbD n else w.getLsbD n := by
  cases h : v.getLsbD n <;> simp [h]

/-- A write to any register changes at most the direction bits whose value bit is 1. -/
theorem Group.write_dir_getLsbD (hn : n < 32) (grp : Group) (v : Word) (r : Reg) :
    (grp.write v r).dir.getLsbD n = if v.getLsbD n then writtenDirBit r (grp.dir.getLsbD n) else grp.dir.getLsbD n := by
  cases r with
  | dirclr => exact getLsbD_clear hn grp.dir v
  | dirset => exact getLsbD_set grp.dir v n
  | _ => exact (ite_self _).symm

/-- A write to any register changes at most the latch bits whose value bit is 1. -/
theorem Group.write_out_getLsbD (hn : n < 32) (grp : Group) (v : Word) (r : Reg) :
    (grp.write v r).out.getLsbD n = if v.getLsbD n then writtenOutBit r (grp.out.getLsbD n) else grp.out.getLsbD n := by
  cases r with
  | outclr => exact getLsbD_clear hn grp.out v
  | outset => exact getLsbD_set grp.out v n
  | outtgl => exact getLsbD_toggle grp.out v n
  | _ => exact (ite_self _).symm

theorem State.group_writeReg_same (hg : g < s.groups.length) (r : Reg) (v : Word) :
    (s.writeReg g r v).group g = (s.group g).write v r := by
  rw [State.group_writeReg, if_pos ⟨rfl, hg⟩]

/-- Settles O10: both registers are written by the one rule for a word register, bit by bit. -/
theorem directionStores : Obligations.DirectionStores := fun s g v hl hg => by
  refine ⟨⟨_, State.memWrite_word hg .dirclr rfl rfl v, State.busStore_ok hl hg rfl rfl, rfl, fun n hn => ?_⟩,
    ⟨_, State.memWrite_word hg .dirset rfl rfl v, State.busStore_ok hl hg rfl rfl, rfl, fun n hn => ?_⟩⟩
  all_goals rw [State.group_writeReg_same hg, Group.write_dir_getLsbD hn]; rfl

/-- Settles O11, in the same way over the latch. -/
theorem outputStores : Obligations.OutputStores := fun s g v hl hg => by
  refine ⟨⟨_, State.memWrite_word hg .outclr rfl rfl v, State.busStore_ok hl hg rfl rfl, rfl, fun n hn => ?_⟩,
    ⟨_, State.memWrite_word hg .outset rfl rfl v, State.busStore_ok hl hg rfl rfl, rfl, fun n hn => ?_⟩,
    ⟨_, State.memWrite_word hg .outtgl rfl rfl v, State.busStore_ok hl hg rfl rfl, rfl, fun n hn => ?_⟩⟩
  all_goals rw [State.group_writeReg_same hg, Group.write_out_getLsbD hn]; rfl

/-! ## Writes of disjoint bits commute -/

/-- Two changes of one bit, each made where its value bit is 1, commute where not both are. -/
theorem ite_bit_comm {a b : Bool} (h : (a && b) = false) (e f : Bool → Bool) (d : Bool) :
    (if b then f (if a then e d else d) else if a then e d else d) =
      if a then e (if b then f d else d) else if b then f d else d := by
  cases a with
  | false => rfl
  | true => cases (show b = false from h); rfl

theorem Group.write_bytes_of_bitRegister (hr : BitRegister r) :
    (grp.write v r).pincfg = grp.pincfg ∧ (grp.write v r).pmux = grp.pmux := by
  rcases hr with rfl | rfl | rfl | rfl | rfl <;> exact ⟨rfl, rfl⟩

/-- Groups are equal when their words agree bit by bit and their bytes agree. -/
theorem Group.eq_of_bits {a b : Group} (hd : ∀ n, n < 32 → a.dir.getLsbD n = b.dir.getLsbD n)
    (ho : ∀ n, n < 32 → a.out.getLsbD n = b.out.getLsbD n) (hc : a.pincfg = b.pincfg) (hm : a.pmux = b.pmux) : a = b := by
  cases a; cases b
  exact Group.mk.injEq .. |>.mpr ⟨BitVec.eq_of_getLsbD_eq hd, BitVec.eq_of_getLsbD_eq ho, hc, hm⟩

/-- Of two disjoint writes at most one changes a bit, whatever the two registers. -/
theorem Group.write_write_comm (hq : BitRegister q) (hr : BitRegister r) (hxy : x &&& y = 0) :
    (grp.write x q).write y r = (grp.write y r).write x q := by
  have hbit (n : Nat) : (x.getLsbD n && y.getLsbD n) = false := by rw [← BitVec.getLsbD_and, hxy]; exact BitVec.getLsbD_zero
  refine Group.eq_of_bits (fun n hn => ?_) (fun n hn => ?_) ?_ ?_
  · simp only [Group.write_dir_getLsbD hn]
    exact ite_bit_comm (hbit n) (writtenDirBit q) (writtenDirBit r) _
  · simp only [Group.write_out_getLsbD hn]
    exact ite_bit_comm (hbit n) (writtenOutBit q) (writtenOutBit r) _
  · simp only [Group.write_bytes_of_bitRegister hq, Group.write_bytes_of_bitRegister hr]
  · simp only [Group.write_bytes_of_bitRegister hq, Group.write_bytes_of_bitRegister hr]

theorem State.writeReg_writeReg_comm (hq : BitRegister q) (hr : BitRegister r) (hxy : x &&& y = 0) (s : State) (g h : Nat) :
    (s.writeReg g q x).writeReg h r y = (s.writeReg h r y).writeReg g q x := by
  have hmod : (s.groups.modify g fun grp => grp.write x q).modify h (fun grp => grp.write y r) =
      (s.groups.modify h fun grp => grp.write y r).modify g fun grp => grp.write x q := by
    by_cases hgh : g = h
    · subst hgh
      rw [List.modify_modify_eq, List.modify_modify_eq]
      congr 1
      exact funext fun grp => Group.write_write_comm hq hr hxy
    · exact List.modify_modify_ne _ _ _ hgh
  simp only [State.writeReg, hmod]

/-- A direct write of a bit register of a group that exists (R180 to R184). -/
theorem exec_bitRegister (hr : BitRegister r) (hl : s.live = true) (hg : g < s.groups.length) (v : Word) :
    exec (accessInstr true g v r) s = .next (s.writeReg g r v) := by
  rcases hr with rfl | rfl | rfl | rfl | rfl <;> exact State.busStore_ok hl hg rfl rfl

/-- Settles O31: a write to one group commutes with one to another, and two to the same group commute bit by bit. -/
theorem disjointWritesCommute : Obligations.DisjointWritesCommute := fun s g h q r x y hl hg hh hq hr hxy => by
  refine ⟨_, _, _, exec_bitRegister hq hl hg x,
    exec_bitRegister (s := s.writeReg g q x) hr hl (by rwa [State.writeReg_length]) y, exec_bitRegister hr hl hh y, ?_⟩
  rw [State.writeReg_writeReg_comm hq hr hxy]
  exact exec_bitRegister (s := s.writeReg h r y) hq hl (by rwa [State.writeReg_length]) x

/-! ## The values a byte register takes -/

/-- A multiplexer byte is legal when its two hexadecimal digits are functions (R26). -/
theorem pmuxLegal_iff_toNat {n : Nat} {v : Byte} : pmuxLegal n v = true ↔ v.toNat % 16 < n ∧ v.toNat / 16 < n := by
  have hhigh : v.toNat / 16 % 16 = v.toNat / 16 := by omega
  simp [pmuxLegal, Nat.shiftRight_eq_div_pow, hhigh]

/-- The legal configuration bytes (10_state.md R23). -/
theorem pincfgLegal_iff {v : Byte} : pincfgLegal v = true ↔ v = 0x00 ∨ v = 0x01 ∨ v = 0x04 ∨ v = 0x05 := by
  simp only [pincfgLegal, Bool.or_eq_true, beq_iff_eq, or_assoc]

/-- A legal configuration byte has no reserved bit set (R23). -/
theorem and_reserved_of_pincfgLegal {v : Byte} (h : pincfgLegal v = true) : v &&& 0xFA = 0 := by
  rcases pincfgLegal_iff.mp h with rfl | rfl | rfl | rfl <;> rfl

/-- ST.B PMUX of a legal byte on a group that exists (R187). -/
theorem exec_stbPmux (hl : s.live = true) (hg : g < s.groups.length) (k : Pair) {v : Byte}
    (hv : pmuxLegal s.numFuncs v = true) :
    exec (.stbPmux g k v) s = .next (s.writeReg g (.pmux k) (v.zeroExtend 32)) :=
  State.busStore_ok (r := .pmux k) hl hg rfl ((congrArg _ (lowByte_zeroExtend v)).trans hv)

/-- ST.B PINCFG of a legal byte on a group that exists (R189). -/
theorem exec_stbPincfg (hl : s.live = true) (hg : g < s.groups.length) (b : Pin) {v : Byte} (hv : pincfgLegal v = true) :
    exec (.stbPincfg g b v) s = .next (s.writeReg g (.pincfg b) (v.zeroExtend 32)) :=
  State.busStore_ok (r := .pincfg b) hl hg rfl ((congrArg _ (lowByte_zeroExtend v)).trans hv)

/-- LD.B PMUX delivers the multiplexer byte (R186). -/
theorem exec_ldbPmux (hl : s.live = true) (hg : g < s.groups.length) (k : Pair) :
    exec (.ldbPmux g k) s = .next (s.deliver (some (.byte ((s.group g).pmuxAt k)))) := by
  rw [← lowByte_zeroExtend ((s.group g).pmuxAt k)]
  exact State.busLoad_ok (r := .pmux k) hl hg rfl fun v => .byte (lowByte v)

/-- LD.B PINCFG delivers the configuration byte (R188). -/
theorem exec_ldbPincfg (hl : s.live = true) (hg : g < s.groups.length) (b : Pin) :
    exec (.ldbPincfg g b) s = .next (s.deliver (some (.byte ((s.group g).pincfgAt b)))) := by
  rw [← lowByte_zeroExtend ((s.group g).pincfgAt b)]
  exact State.busLoad_ok (r := .pincfg b) hl hg rfl fun v => .byte (lowByte v)

theorem Group.write_pmux_zeroExtend (grp : Group) (k : Pair) (v : Byte) :
    grp.write (v.zeroExtend 32) (.pmux k) = grp.setPmux k v :=
  congrArg (grp.setPmux k) (lowByte_zeroExtend v)

theorem Group.write_pincfg_zeroExtend (grp : Group) (b : Pin) (v : Byte) :
    grp.write (v.zeroExtend 32) (.pincfg b) = grp.setPincfg b v :=
  congrArg (grp.setPincfg b) (lowByte_zeroExtend v)

/-- Settles O12: each read delivers the byte it finds, and each write of a legal byte is one `set` of its vector. -/
theorem byteRegisterAccesses : Obligations.ByteRegisterAccesses := fun s g k b v hl hg => by
  refine ⟨State.memRead_pmux hg k, exec_ldbPmux hl hg k, State.memRead_pincfg hg b, exec_ldbPincfg hl hg b,
    fun hlow hhigh => ?_, fun hv => ?_⟩
  · have hv : pmuxLegal s.numFuncs v = true := pmuxLegal_iff_toNat.mpr ⟨hlow, hhigh⟩
    refine ⟨_, State.memWrite_pmux hg k (by rwa [lowByte_zeroExtend]), exec_stbPmux hl hg k hv, ?_, fun k' => ?_⟩
    · simp only [State.writeReg, inGroup, Group.write_pmux_zeroExtend]
    · rw [State.group_writeReg_same hg, Group.write_pmux_zeroExtend, Group.pmuxAt_setPmux]
  · have hv : pincfgLegal v = true := pincfgLegal_iff.mpr hv
    refine ⟨_, State.memWrite_pincfg hg b (by rwa [lowByte_zeroExtend]), exec_stbPincfg hl hg b hv, ?_, fun b' => ?_⟩
    · simp only [State.writeReg, inGroup, Group.write_pincfg_zeroExtend]
    · rw [State.group_writeReg_same hg, Group.write_pincfg_zeroExtend, Group.pincfgAt_setPincfg]

/-! ## Direct accesses that are refused -/

/-- A direct write of a value its register does not take, or to a group that does not exist, sets the mark alone. -/
theorem State.busStore_refused (hl : s.live = true) (h : g < s.groups.length → r.accepts s.numFuncs v = false) :
    s.busStore g r v = .next { s with refused := some .busAccess } := by
  have hno : (decide (g < s.groups.length) && (r.writable && r.accepts s.numFuncs v)) = false := by
    by_cases hg : g < s.groups.length
    · rw [h hg, Bool.and_false, Bool.and_false]
    · rw [decide_eq_false hg, Bool.false_and]
  simp [State.busStore, State.unlessStopped_live hl, State.memWrite_reg, hno, State.reject]

/-- A direct read of a group that does not exist sets the mark alone. -/
theorem State.busLoad_refused (hl : s.live = true) (hg : s.groups.length ≤ g) (r : Reg) (out : Word → Result) :
    s.busLoad g r out = .next { s with refused := some .busAccess } := by
  have hread : s.memRead (s.addr g r.offset) r.width = .error (.refuse .busAccess) := by
    rw [State.memRead_reg]
    split
    · exact if_neg (Nat.not_lt.mpr hg)
    · rfl
  simp only [State.busLoad, State.unlessStopped_live hl, hread, State.reject]

/-- Settles O14: a group out of range refuses reads and writes, a byte that is not legal the write. -/
theorem directAccessRefused : Obligations.DirectAccessRefused := fun s g k b w v hl => by
  refine ⟨fun hg => ?_, fun hnib => ?_, fun hres => ?_⟩
  · have store (r : Reg) (x : Word) : s.busStore g r x = .next { s with refused := some .busAccess } :=
      State.busStore_refused hl fun hlt => absurd hg (Nat.not_le.mpr hlt)
    simp only [List.forall_mem_cons, List.not_mem_nil, false_implies, implies_true, and_true]
    exact ⟨store _ _, store _ _, store _ _, store _ _, store _ _, State.busLoad_refused hl hg _ _,
      State.busLoad_refused hl hg _ _, store _ _, State.busLoad_refused hl hg _ _, store _ _⟩
  · refine State.busStore_refused (r := .pmux k) hl fun _ => Bool.eq_false_iff.mpr fun hv => ?_
    have hlegal : pmuxLegal s.numFuncs v = true := (congrArg _ (lowByte_zeroExtend v)).symm.trans hv
    have := pmuxLegal_iff_toNat.mp hlegal
    omega
  · refine State.busStore_refused (r := .pincfg b) hl fun _ => Bool.eq_false_iff.mpr fun hv => hres ?_
    exact and_reserved_of_pincfgLegal ((congrArg _ (lowByte_zeroExtend v)).symm.trans hv)

end Sys2Proof.Machine
end

section
/-! PROOFS. Which bus accesses reach a register, by offset, width, direction and value (20_memory.md R51, R52, R54, R62), and
what a step makes of the others. -/

namespace Sys2Proof.Machine

open Sys2Proof Sys2Proof.Claims

variable {c : Config} {a : Access} {g off : Nat} {r : Reg}

theorem lowByte_toNat (v : Word) : (lowByte v).toNat = v.toNat % 256 := by
  simp [lowByte]

/-- A register has no offset but its own. -/
theorem offset_of_regAt (h : regAt off = some r) : r.offset = off := by
  unfold regAt at h
  repeat' split at h
  all_goals cases h
  all_goals simp only [Reg.offset, BitVec.toNat_ofNat]; omega

/-- No access is admitted at a reserved offset or inside a register. -/
theorem not_admittedAt_of_regAt_none (h : regAt off = none) : ¬AdmittedAt c a g off := by
  unfold regAt at h
  repeat' split at h
  all_goals cases h
  rintro ⟨-, ⟨-, -, hoff⟩ | ⟨-, -, hoff⟩ | ⟨-, hlo, hhi, -⟩ | ⟨-, hlo, hhi, -⟩⟩ <;> omega

theorem accepts_pmux_iff {n : Nat} {v : Word} {k : Pair} :
    Reg.accepts n v (.pmux k) = true ↔ v.toNat % 16 < n ∧ v.toNat / 16 % 16 < n := by
  have hlow : v.toNat % 256 % 16 = v.toNat % 16 := by omega
  have hhigh : v.toNat % 256 / 16 = v.toNat / 16 % 16 := by omega
  rw [Reg.accepts, pmuxLegal_iff_toNat, lowByte_toNat, hlow, hhigh]

theorem accepts_pincfg_iff {n : Nat} {v : Word} {b : Pin} : Reg.accepts n v (.pincfg b) = true ↔
    v.toNat % 256 = 0 ∨ v.toNat % 256 = 1 ∨ v.toNat % 256 = 4 ∨ v.toNat % 256 = 5 := by
  rw [Reg.accepts, pincfgLegal_iff, ← lowByte_toNat]
  simp only [← BitVec.toNat_inj]
  rfl

/-- When a register of one byte, which is read and written, takes an access. -/
theorem Access.fits_iff_of_byte (hwidth : r.width = 1) (hread : r.readable = true) (hwrite : r.writable = true) :
    a.fits c g r = true ↔ g < c.numPorts ∧ a.size = 1 ∧ (a.write = true → r.accepts c.numFuncs a.data = true) := by
  cases hw : a.write <;> simp [Access.fits, hw, hwidth, hread, hwrite, and_assoc]

theorem admittedAt_pmux_iff {k : Pair} : AdmittedAt c a g (0x30 + k.toNat) ↔
    g < c.numPorts ∧ a.size = 1 ∧
      (a.write = true → a.data.toNat % 16 < c.numFuncs ∧ a.data.toNat / 16 % 16 < c.numFuncs) := by
  have hk := k.isLt
  constructor
  · rintro ⟨hg, ⟨-, -, hoff⟩ | ⟨-, -, hoff⟩ | ⟨hsize, -, -, hv⟩ | ⟨-, hoff, -⟩⟩
    · omega
    · omega
    · exact ⟨hg, hsize, hv⟩
    · omega
  · rintro ⟨hg, hsize, hv⟩
    exact ⟨hg, .inr (.inr (.inl ⟨hsize, by omega, by omega, hv⟩))⟩

theorem admittedAt_pincfg_iff {b : Pin} : AdmittedAt c a g (0x40 + b.toNat) ↔
    g < c.numPorts ∧ a.size = 1 ∧ (a.write = true → a.data.toNat % 256 = 0 ∨ a.data.toNat % 256 = 1 ∨
      a.data.toNat % 256 = 4 ∨ a.data.toNat % 256 = 5) := by
  have hb := b.isLt
  constructor
  · rintro ⟨hg, ⟨-, -, hoff⟩ | ⟨-, -, hoff⟩ | ⟨-, -, hoff, -⟩ | ⟨hsize, -, -, hv⟩⟩
    · omega
    · omega
    · omega
    · exact ⟨hg, hsize, hv⟩
  · rintro ⟨hg, hsize, hv⟩
    exact ⟨hg, .inr (.inr (.inr ⟨hsize, by omega, by omega, hv⟩))⟩

/-- An access at a register's offset is admitted when the register takes it. -/
theorem admittedAt_offset_iff : AdmittedAt c a g r.offset ↔ a.fits c g r = true := by
  cases r with
  | pmux k =>
    rw [Access.fits_iff_of_byte rfl rfl rfl, accepts_pmux_iff]
    exact admittedAt_pmux_iff
  | pincfg b =>
    rw [Access.fits_iff_of_byte rfl rfl rfl, accepts_pincfg_iff]
    exact admittedAt_pincfg_iff
  | _ =>
    cases hw : a.write <;>
      simp [AdmittedAt, hw, Access.fits, Reg.offset, Reg.width, Reg.writable, Reg.readable, Reg.accepts]

/-- An access in a group's window reaches a register of that group when it is admitted, and is refused when it is not. -/
theorem resolve_eq_of_addr (hoff : off < groupStride) (ha : a.addr = regAddr c.portBase g off) :
    (AdmittedAt c a g off ∧ ∃ r, resolve c a = .ok (g, r)) ∨
      ¬AdmittedAt c a g off ∧ resolve c a = .error (.refuse .busAccess) := by
  have hloc : locate c.portBase a.addr = some (g, off) := by rw [ha, locate_regAddr _ _ _ hoff]
  cases hr : regAt off with
  | none => exact .inr ⟨not_admittedAt_of_regAt_none hr, by simp only [resolve, hloc, hr]⟩
  | some r =>
    have hfits : AdmittedAt c a g off ↔ a.fits c g r = true := by rw [← offset_of_regAt hr]; exact admittedAt_offset_iff
    by_cases hf : a.fits c g r = true
    · exact .inl ⟨hfits.mpr hf, r, by simp only [resolve, hloc, hr, hf, if_true]⟩
    · exact .inr ⟨fun h => hf (hfits.mp h), by simp only [resolve, hloc, hr, if_neg hf]⟩

theorem groupOf_accessInstr (write : Bool) (g : Nat) (v : Word) (r : Reg) : groupOf (accessInstr write g v r) = g := by
  cases r <;> cases write <;> rfl

/-- The step of a context whose next request is an access that reaches no register. -/
theorem step_of_unresolved {s : State} {rest : List Request} {e : Reject} (hs : Accepting s) (hu : Undisturbed s)
    (ht : s.running.todo = .bus a :: rest) (he : resolve s.config a = .error e) : step s = s.reject e := by
  obtain ⟨hl, hidle⟩ := hs
  have hd : decodeRequest s.config (.bus a) = some (.error e) := by simp only [decodeRequest, decodeAccess, he]
  rw [step_eq_proceed hl hu, State.proceed_of_request hidle ht, State.issue_of_rejected hd]

/-- Settles O5, by the two cases of an access in a window: it is admitted and decodes, or is refused. -/
theorem busAccessRefusals : Obligations.BusAccessRefusals := fun s a rest g off hs hu ht hoff ha => by
  rcases resolve_eq_of_addr (c := s.config) hoff ha with ⟨hadm, r, hr⟩ | ⟨hadm, hr⟩
  · have hd : decodeAccess s.config a = .ok (accessInstr a.write g a.data r) := by simp only [decodeAccess, hr]
    exact ⟨fun _ => ⟨_, hd, groupOf_accessInstr _ _ _ _⟩, fun h => absurd hadm h⟩
  · exact ⟨fun h => absurd h hadm, fun _ => step_of_unresolved hs hu ht hr⟩

/-- Settles O41: below the first window an address names no group. -/
theorem accessOutsideWindows : Obligations.AccessOutsideWindows := fun s a rest hs hu ht ha => by
  have hloc : locate s.config.portBase a.addr = none := if_pos ha
  exact step_of_unresolved (e := .outside a.addr) hs hu ht (by simp only [resolve, hloc])

end Sys2Proof.Machine
end

section
/-! PROOFS. The encoder and the decoder are inverse: on the command words by the fields of format C and the masks of R88, on the
bus accesses by the register map (30_encoding.md R81 to R92). -/

namespace Sys2Proof

open Sys2Proof.Machine Sys2Proof.Claims

variable {c : Config} {w : Word} {op : Opcode}

/-! ## The checks on a field that is encoded -/

theorem checkHandle_of_lt {g : Port} (hg : g.toNat < c.numPorts) (i : Instr) : checkHandle c g i = .ok i := if_pos hg

@[simp] theorem checkPull_bits (p : Pull) : checkPull p.bits = .ok p := by
  simp only [checkPull, Pull.ofBits_bits]

theorem checkFunc_bits {f : FuncSel} (hf : f.wf c = true) : checkFunc c f.bits = .ok f := by
  simp only [checkFunc, FuncSel.ofBits_bits c f hf]

/-- CFGP's pull request is read from one bit, so its PULL field is `00` or `01` (R83). -/
theorem pull_of_low_bit {p : Pull} (hp : p ≠ .minus) : (if p.bits.getLsbD 0 then Pull.plus else .zero) = p := by
  cases p with
  | minus => exact absurd rfl hp
  | zero => rfl
  | plus => rfl

theorem pull_high_bit {p : Pull} (hp : p ≠ .minus) : p.bits.getLsbD 1 = false := by
  cases p with
  | minus => exact absurd rfl hp
  | zero => rfl
  | plus => rfl

/-! ## Decoding a word of format C -/

section FormatC
variable {pull : BitVec 2} {val : Bool} {fsel : BitVec 8} {pin : PinId} {g : Port} {b : Pin}

@[simp] theorem wordPort_formatC_pinOf : wordPort (formatC op pull val fsel (pinOf g b)) = g := by
  rw [wordPort_eq, wordPin_formatC, port_pinOf]

@[simp] theorem wordBit_formatC_pinOf : wordBit (formatC op pull val fsel (pinOf g b)) = b := by
  rw [wordBit_eq, wordPin_formatC, bit_pinOf]

theorem formatC_getLsbD_26 : (formatC op pull val fsel pin).getLsbD 26 = pull.getLsbD 0 := formatC_getLsbD ..

/-- A word of format C whose unread fields are 0 has passed checks 1 and 2 of R87. -/
theorem decodeWord_formatC (hm : formatC op pull val fsel pin &&& op.mask = op.matchBits) :
    decodeWord c (formatC op pull val fsel pin) = decodeOperands c (formatC op pull val fsel pin) op := by
  simp only [decodeWord, wordOp_formatC, Opcode.ofBits_bits, if_pos hm]

end FormatC

/-- Decoding the word of a well-formed command gives it back: its unread fields are 0, and its operands are read from the fields
they were written to. -/
theorem decodeWord_of_encode {i : Instr} (hi : WellFormed c i = true) (he : encode c i = .command w) :
    decodeWord c w = .ok i := by
  cases i with
  | cfgp g b f p =>
    cases he
    simp only [WellFormed, Bool.and_eq_true, decide_eq_true_eq, bne_iff_ne] at hi
    obtain ⟨⟨hg, hf⟩, hp⟩ := hi
    rw [decodeWord_formatC (formatC_and_mask _ _ _ _ _ (by simp) (by simp) (fun _ _ => pull_high_bit hp) (by simp))]
    simp only [decodeOperands, wordFsel_formatC, checkFunc_bits hf, wordPort_formatC_pinOf, wordBit_formatC_pinOf,
      formatC_getLsbD_26, pull_of_low_bit hp, checkHandle_of_lt hg]
  | osetup pin v => cases he; simp [decodeWord_formatC, formatC_and_mask, decodeOperands, wordPin_formatC, wordVal_formatC]
  | isetup pin p =>
    cases he
    simp [decodeWord_formatC, formatC_and_mask, decodeOperands, wordPull_formatC, wordPin_formatC]
  | oreset g b v | owrite g b v | otoggle g b | otoggleNoirq g b | ireset g b p | iread g b =>
    cases he
    have hg := of_decide_eq_true hi
    simp [decodeWord_formatC, formatC_and_mask, decodeOperands, wordVal_formatC, wordPull_formatC, checkHandle_of_lt hg]
  | _ => cases he

/-! ## Decoding an access to a register -/

/-- An access at a register's own address and width is the access of that register (R51, R54, R62). -/
theorem decodeAccess_accessOf {write : Bool} {g : Nat} {r : Reg} {v : Word} (hg : g < c.numPorts)
    (hr : (if write then r.writable && r.accepts c.numFuncs v else r.readable) = true) :
    decodeAccess c (accessOf c write g r v) = .ok (accessInstr write g v r) := by
  have hf : (accessOf c write g r v).fits c g r = true := by
    simp only [Access.fits, accessOf, Bool.and_eq_true, decide_eq_true_eq, beq_self_eq_true, and_true]
    exact ⟨hg, hr⟩
  have hres : resolve c (accessOf c write g r v) = .ok (g, r) := (resolve_reg c write r.width g r v).trans (if_pos hf)
  simp only [decodeAccess, hres]
  rfl

/-- Decoding the access of a well-formed instruction gives it back. -/
theorem decodeAccess_of_encode {i : Instr} {a : Access} (hi : WellFormed c i = true) (he : encode c i = .bus a) :
    decodeAccess c a = .ok i := by
  cases i with
  | stwDirclr g v | stwDirset g v | stwOutclr g v | stwOutset g v | stwOuttgl g v | ldwIn g | ldbPmux g k | ldbPincfg g b =>
    cases he
    exact decodeAccess_accessOf (of_decide_eq_true hi) rfl
  | stbPmux g _ v | stbPincfg g _ v =>
    cases he
    obtain ⟨hg, hv⟩ := Bool.and_eq_true_iff.mp hi
    refine (decodeAccess_accessOf (of_decide_eq_true hg) ?_).trans ?_
    · exact (congrArg _ (lowByte_zeroExtend v)).trans hv
    · simp only [accessInstr, if_true, lowByte_zeroExtend]
  | _ => cases he

/-- Settles O1, by the two kinds of request an instruction is encoded as. -/
theorem decodeOfEncode : Obligations.DecodeOfEncode := fun c i hi => by
  cases he : encode c i with
  | command w => simp only [decodeRequest, decodeWord_of_encode hi he]
  | bus a => simp only [decodeRequest, decodeAccess_of_encode hi he]
  | enter | exit | setIe v => cases i <;> cases he

/-- Settles O2: the decoder's answers are well formed, word or access. -/
theorem decodedIsWellFormed : Obligations.DecodedIsWellFormed := fun _ _ _ hn h => decodeRequest_wellFormed hn h

/-! ## The fields of an accepted word -/

/-- A selector that is read is encoded as the field it was read from (R85). -/
theorem FuncSel.bits_of_ofBits {n : Nat} (hn : n ≤ 16) {b : BitVec 8} {f : FuncSel} (h : FuncSel.ofBits n b = some f) :
    b = f.bits := by
  unfold FuncSel.ofBits at h
  split at h
  · next hb => cases h; exact hb
  · split at h
    · next hb =>
      cases h
      apply BitVec.eq_of_toNat_eq
      simp [FuncSel.bits, BitVec.toNat_add, BitVec.extractLsb'_toNat]
      omega
    · cases h

/-- A word's PIN field is made of its port and its bit (R81). -/
theorem pinOf_wordPort_wordBit (w : Word) : pinOf (wordPort w) (wordBit w) = wordPin w := by
  rw [wordPort_eq, wordBit_eq]
  exact pinOf_pinPort_pinBit (wordPin w)

/-- Where the mask of a row covers a field, a word of the row has the row's value in it (R88). -/
theorem extractLsb'_eq_of_mask {m x : Word} {start len : Nat} (h : w &&& m = x)
    (hm : m.extractLsb' start len = BitVec.allOnes len) : w.extractLsb' start len = x.extractLsb' start len := by
  rw [← h, BitVec.extractLsb'_and, hm, BitVec.and_allOnes]

theorem getLsbD_eq_of_mask {m x : Word} {n : Nat} (h : w &&& m = x) (hm : m.getLsbD n = true) :
    w.getLsbD n = x.getLsbD n := by
  rw [← h, BitVec.getLsbD_and, hm, Bool.and_true]

/-- A bit of a field is the word's bit at the field's place. -/
theorem getLsbD_extractLsb'_sub {start len i : Nat} (hs : start ≤ i) (hl : i < start + len) :
    (w.extractLsb' start len).getLsbD (i - start) = w.getLsbD i := by
  rw [BitVec.getLsbD_extractLsb', decide_eq_true (by omega), Bool.true_and, Nat.add_sub_of_le hs]

/-- A word whose reserved bit 24 is 0 is format C of its fields (R81). -/
theorem formatC_of_fields (hop : wordOp w = op.bits) (h : w.getLsbD 24 = false) :
    formatC op (wordPull w) (wordVal w) (wordFsel w) (wordPin w) = w := by
  apply BitVec.eq_of_getLsbD_eq
  intro i hi
  rw [formatC_getLsbD, ← hop]
  split_ifs
  · exact getLsbD_extractLsb'_sub (Nat.zero_le i) (by omega)
  · exact getLsbD_extractLsb'_sub (by omega) (by omega)
  · rw [← h, show i = 24 by omega]
  · rw [wordVal, show i = 25 by omega]
  · exact getLsbD_extractLsb'_sub (by omega) (by omega)
  · exact getLsbD_extractLsb'_sub (by omega) (by omega)

/-- CFGP's PULL field is `00` or `01`, so it is the encoding of the request its low bit names (R83). -/
theorem pull_bits_of_low_bit {b : BitVec 2} (h : b.getLsbD 1 = false) :
    (if b.getLsbD 0 then Pull.plus else .zero).bits = b := by
  revert b; decide

/-- An accepted word is the encoding of the command it decodes to: its operands come from the fields its command reads, and the
mask of its row fixes every other field. -/
theorem encode_of_decodeWord {i : Instr} (hn : c.numFuncs ≤ 16) (h : decodeWord c w = .ok i) : encode c i = .command w := by
  obtain ⟨op, hop, hm, ho⟩ := decodeWord_ok h
  have h24 : w.getLsbD 24 = false := by cases op <;> exact getLsbD_eq_of_mask hm rfl
  rw [← formatC_of_fields (Opcode.bits_of_ofBits hop) h24]
  cases op with
  | cfgp =>
    simp only [decodeOperands] at ho
    split at ho
    · cases ho
    · next f hf =>
      obtain ⟨-, rfl⟩ := checkHandle_ok ho
      have hval : wordVal w = false := getLsbD_eq_of_mask hm rfl
      have h27 : w.getLsbD 27 = false := getLsbD_eq_of_mask hm rfl
      have hhigh : (wordPull w).getLsbD 1 = w.getLsbD 27 := getLsbD_extractLsb'_sub (i := 27) (by omega) (by omega)
      have hlow : (wordPull w).getLsbD 0 = w.getLsbD 26 := getLsbD_extractLsb'_sub (i := 26) (by omega) (by omega)
      rw [encode, ← FuncSel.bits_of_ofBits hn (checkFunc_ok hf), pinOf_wordPort_wordBit, hval, ← hlow,
        pull_bits_of_low_bit (hhigh.trans h27)]
  | osetup =>
    cases ho
    have hpull : wordPull w = 0 := extractLsb'_eq_of_mask hm rfl
    have hfsel : wordFsel w = 0 := extractLsb'_eq_of_mask hm rfl
    rw [encode, hpull, hfsel]
  | oreset | owrite =>
    obtain ⟨-, rfl⟩ := checkHandle_ok ho
    have hpull : wordPull w = 0 := extractLsb'_eq_of_mask hm rfl
    have hfsel : wordFsel w = 0 := extractLsb'_eq_of_mask hm rfl
    rw [encode, pinOf_wordPort_wordBit, hpull, hfsel]
  | otoggle | otoggleNoirq | iread =>
    obtain ⟨-, rfl⟩ := checkHandle_ok ho
    have hpull : wordPull w = 0 := extractLsb'_eq_of_mask hm rfl
    have hval : wordVal w = false := getLsbD_eq_of_mask hm rfl
    have hfsel : wordFsel w = 0 := extractLsb'_eq_of_mask hm rfl
    rw [encode, pinOf_wordPort_wordBit, hpull, hval, hfsel]
  | isetup =>
    simp only [decodeOperands] at ho
    split at ho
    · cases ho
    · next p hp =>
      cases ho
      have hval : wordVal w = false := getLsbD_eq_of_mask hm rfl
      have hfsel : wordFsel w = 0 := extractLsb'_eq_of_mask hm rfl
      rw [encode, ← Pull.bits_of_ofBits (checkPull_ok hp), hval, hfsel]
  | ireset =>
    simp only [decodeOperands] at ho
    split at ho
    · cases ho
    · next p hp =>
      obtain ⟨-, rfl⟩ := checkHandle_ok ho
      have hval : wordVal w = false := getLsbD_eq_of_mask hm rfl
      have hfsel : wordFsel w = 0 := extractLsb'_eq_of_mask hm rfl
      rw [encode, ← Pull.bits_of_ofBits (checkPull_ok hp), pinOf_wordPort_wordBit, hval, hfsel]

/-- Settles O3: the fields of an accepted word are those its command is encoded with. -/
theorem encodeOfDecodedWord : Obligations.EncodeOfDecodedWord := fun _ _ _ hn h => encode_of_decodeWord hn h

end Sys2Proof
end

section
/-! PROOFS. The refusals of the decoder: the checks of R87 in their order are what it makes of a command word, and a step of a
machine that meets a refused word (30_encoding.md R87, 60_exceptions.md R207). The rows and words that the spec tabulates. -/

namespace Sys2Proof

open Sys2Proof.Machine Sys2Proof.Claims

variable {c : Config} {w : Word} {op : Opcode}

/-! ## What an answer of the decoder refuses -/

/-- The reason an answer gives, when it is a refusal. -/
def refusal? {α : Type} : Except RefuseReason α → Option RefuseReason
  | .error r => some r
  | .ok _ => none

@[simp] theorem refusal?_error {α : Type} (r : RefuseReason) : refusal? (.error r : Except RefuseReason α) = some r := rfl

@[simp] theorem refusal?_ok {α : Type} (a : α) : refusal? (.ok a) = none := rfl

theorem eq_error_of_refusal? {α : Type} {x : Except RefuseReason α} {r : RefuseReason} (h : refusal? x = some r) :
    x = .error r := by
  cases x with
  | error e => cases h; rfl
  | ok a => cases h

theorem eq_ok_of_refusal? {α : Type} {x : Except RefuseReason α} (h : refusal? x = none) : ∃ a, x = .ok a := by
  cases x with
  | error e => cases h
  | ok a => exact ⟨a, rfl⟩

theorem refusal?_checkHandle (g : Port) (i : Instr) :
    refusal? (checkHandle c g i) = if ¬g.toNat < c.numPorts then some .badHandle else none := by
  rw [ite_not]; unfold checkHandle; split <;> rfl

theorem refusal?_checkPull (b : BitVec 2) : refusal? (checkPull b) = if b.toNat = 2 then some .reservedPull else none := by
  revert b; decide

theorem refusal?_checkFunc (b : BitVec 8) : refusal? (checkFunc c b) =
    if b.toNat = 0 ∨ 0x41 ≤ b.toNat ∧ b.toNat ≤ 0x40 + c.numFuncs then none else some .badFunction := by
  have hzero : b = 0x00 ↔ b.toNat = 0 := BitVec.toNat_inj.symm
  simp only [← hzero]
  unfold checkFunc FuncSel.ofBits
  by_cases hnone : b = 0x00
  · rw [if_pos hnone, if_pos (.inl hnone)]; rfl
  · rw [if_neg hnone]
    by_cases hletter : 0x41 ≤ b.toNat ∧ b.toNat ≤ 0x40 + c.numFuncs
    · rw [if_pos hletter, if_pos (.inr hletter)]; rfl
    · rw [if_neg hletter, if_neg (not_or.mpr ⟨hnone, hletter⟩)]; rfl

/-! ## The numbers of R81 and the table of R88 -/

theorem wordOp_toNat (w : Word) : (wordOp w).toNat = w.toNat / 2 ^ 28 := by
  rw [wordOp, BitVec.extractLsb'_toNat, Nat.shiftRight_eq_div_pow, Nat.mod_eq_of_lt (by omega)]

theorem wordPull_toNat (w : Word) : (wordPull w).toNat = w.toNat / 2 ^ 26 % 4 := by
  rw [wordPull, BitVec.extractLsb'_toNat, Nat.shiftRight_eq_div_pow]

theorem wordFsel_toNat (w : Word) : (wordFsel w).toNat = w.toNat / 2 ^ 16 % 256 := by
  rw [wordFsel, BitVec.extractLsb'_toNat, Nat.shiftRight_eq_div_pow]

theorem wordPort_toNat (w : Word) : (wordPort w).toNat = w.toNat / 2 ^ 5 % 2048 := by
  rw [wordPort, BitVec.extractLsb'_toNat, Nat.shiftRight_eq_div_pow]

/-- The row of R88 an OP field names. -/
def rowOf (n : Nat) : Option TableRow := if n = 0 then none else commandRows[n - 1]?

theorem rowOf_of_reserved {b : BitVec 4} (h : Opcode.ofBits b = none) : rowOf b.toNat = none := by
  revert b; decide

theorem rowOf_bits (op : Opcode) :
    ∃ row, rowOf op.bits.toNat = some row ∧ row.mask = op.mask.toNat ∧ row.fixed = op.matchBits.toNat := by
  cases op <;> exact ⟨_, rfl, rfl, rfl⟩

theorem firstFailing_of_reserved (h : Opcode.ofBits (wordOp w) = none) : firstFailing c w = some .reservedOpcode := by
  have hrow := rowOf_of_reserved h
  rw [wordOp_toNat, rowOf] at hrow
  simp only [firstFailing, hrow]

/-- Checks 3 to 5 of R87 on a word whose OP field is `n`, from the numbers of its fields. -/
def operandFailing (c : Config) (w : Word) (n : Nat) : Option RefuseReason :=
  if (n = 7 ∨ n = 8) ∧ (wordPull w).toNat = 2 then some .reservedPull
  else if n = 1 ∧ ¬((wordFsel w).toNat = 0 ∨ 0x41 ≤ (wordFsel w).toNat ∧ (wordFsel w).toNat ≤ 0x40 + c.numFuncs) then
    some .badFunction
  else if n ≠ 2 ∧ n ≠ 7 ∧ ¬(wordPort w).toNat < c.numPorts then some .badHandle
  else none

theorem refusal?_decodeOperands : refusal? (decodeOperands c w op) = operandFailing c w op.bits.toNat := by
  cases op with
  | cfgp =>
    have hcheck := refusal?_checkFunc (c := c) (wordFsel w)
    split at hcheck
    · next hlegal =>
      obtain ⟨f, hf⟩ := eq_ok_of_refusal? hcheck
      simp [operandFailing, Opcode.bits, decodeOperands, hf, hlegal, refusal?_checkHandle]
    · next hbad => simp [operandFailing, Opcode.bits, decodeOperands, eq_error_of_refusal? hcheck, hbad]
  | isetup | ireset =>
    have hcheck := refusal?_checkPull (wordPull w)
    split at hcheck
    · next hbad => simp [operandFailing, Opcode.bits, decodeOperands, eq_error_of_refusal? hcheck, hbad]
    · next hlegal =>
      obtain ⟨p, hp⟩ := eq_ok_of_refusal? hcheck
      simp [operandFailing, Opcode.bits, decodeOperands, hp, hlegal, refusal?_checkHandle]
  | osetup => rfl
  | oreset | owrite | otoggle | otoggleNoirq | iread =>
    simp [operandFailing, Opcode.bits, decodeOperands, refusal?_checkHandle]

theorem firstFailing_of_opcode (h : Opcode.ofBits (wordOp w) = some op) : firstFailing c w =
    if w &&& op.mask = op.matchBits then operandFailing c w op.bits.toNat else some .reservedField := by
  obtain ⟨row, hrow, hmask, hfixed⟩ := rowOf_bits op
  have hb := Opcode.bits_of_ofBits h
  have hand : w.toNat &&& row.mask = row.fixed ↔ w &&& op.mask = op.matchBits := by
    rw [hmask, hfixed, ← BitVec.toNat_and, BitVec.toNat_inj]
  rw [← hb, wordOp_toNat, rowOf] at hrow
  simp only [firstFailing, hrow, ne_eq, hand, ite_not]
  rw [← wordOp_toNat, ← wordPull_toNat, ← wordFsel_toNat, ← wordPort_toNat, hb]
  rfl

/-- The first failing check of R87 is the reason the decoder refuses the word for. -/
theorem firstFailing_eq_refusal? : firstFailing c w = refusal? (decodeWord c w) := by
  unfold decodeWord
  split
  · next h => exact firstFailing_of_reserved h
  · next op h =>
    rw [firstFailing_of_opcode h]
    split
    · exact refusal?_decodeOperands.symm
    · rfl

/-! ## A refused request in a machine -/

theorem step_of_rejected {s : State} {q : Request} {rest : List Request} {e : Reject} (hs : Accepting s) (hu : Undisturbed s)
    (ht : s.running.todo = q :: rest) (hd : decodeRequest s.config q = some (.error e)) : step s = s.reject e := by
  obtain ⟨hl, hidle⟩ := hs
  rw [step_eq_proceed hl hu, State.proceed_of_request hidle ht, State.issue_of_rejected hd]

/-- Settles O4, by the first failing check being the decoder's own refusal. -/
theorem decodeChecksInOrder : Obligations.DecodeChecksInOrder := by
  refine ⟨fun c w => ?_, fun s w rest r hs hu ht hf => ?_⟩
  · split
    · next r hf => exact eq_error_of_refusal? (firstFailing_eq_refusal?.symm.trans hf)
    · next hf => exact eq_ok_of_refusal? (firstFailing_eq_refusal?.symm.trans hf)
  · have hd : decodeWord s.config w = .error r := eq_error_of_refusal? (firstFailing_eq_refusal?.symm.trans hf)
    exact step_of_rejected (e := .refuse r) hs hu ht (by simp only [decodeRequest, hd])

/-! ## The rows and the words of the tables -/

/-- Settles O6, by comparing the fixed bits of each pair of rows. -/
theorem tableRowsDisjoint : Obligations.TableRowsDisjoint := by
  unfold Obligations.TableRowsDisjoint
  constructor <;> decide

/-- Settles O7, by running the decoder on each word. -/
theorem specWordsDecode : Obligations.SpecWordsDecode := ⟨rfl, rfl, rfl, rfl, rfl⟩

end Sys2Proof
end

section
/-! PROOFS. The peripheral multiplexer command: its micro-steps, each state whole (40_peripheral_mux.md R112 to R114), and the
footprint of a whole command (R116). -/

namespace Sys2Proof.Machine

open Sys2Proof Sys2Proof.Claims

variable {s t : State} {i : Instr} {g : Port} {b : Pin} {f : FuncSel} {p : Pull}

/-! ## Micro-steps that write a byte register -/

/-- A micro-step that writes a legal multiplexer byte (20_memory.md R61, R64). -/
theorem State.writeStep_pmux {n : Nat} (hg : n < s.groups.length) (k : Pair) {v : Byte} (hv : pmuxLegal s.numFuncs v = true)
    (q : Seq) : s.writeStep (s.addr n (Reg.pmux k).offset) 1 (v.zeroExtend 32) q =
      .next { inGroup s n (fun grp => grp.setPmux k v) with seq := q } := by
  rw [State.writeStep_ok (State.memWrite_pmux hg k (by rwa [lowByte_zeroExtend]))]
  simp only [State.writeReg, inGroup, Group.write_pmux_zeroExtend]

/-- A micro-step that writes a legal configuration byte (R61, R64). -/
theorem State.writeStep_pincfg {n : Nat} (hg : n < s.groups.length) (b : Pin) {v : Byte} (hv : pincfgLegal v = true)
    (q : Seq) : s.writeStep (s.addr n (Reg.pincfg b).offset) 1 (v.zeroExtend 32) q =
      .next { inGroup s n (fun grp => grp.setPincfg b v) with seq := q } := by
  rw [State.writeStep_ok (State.memWrite_pincfg hg b (by rwa [lowByte_zeroExtend]))]
  simp only [State.writeReg, inGroup, Group.write_pincfg_zeroExtend]

theorem inGroup_length (s : State) (n : Nat) (F : Group → Group) : (inGroup s n F).groups.length = s.groups.length :=
  List.length_modify ..

theorem inGroup_group_same {n : Nat} (hg : n < s.groups.length) (F : Group → Group) :
    (inGroup s n F).group n = F (s.group n) := by
  simp [State.group, inGroup, hg]

theorem inGroup_group_other {n m : Nat} (hm : m ≠ n) (F : Group → Group) : (inGroup s n F).group m = s.group m := by
  simp [State.group, inGroup, hm.symm]

/-! ## The micro-steps of CFGP -/

theorem exec_cfgp_guard (hl : s.live = true) (hs : s.seq = .idle) : exec (.cfgp g b f p) s =
    .next { s with token := s.ie, ie := false, seq := .busy (.cfgp g b f p) (afterGuard (.cfgp g b f p)) } :=
  exec_of_idle rfl hl hs

theorem exec_cfgp_readMux (hl : s.live = true) (hg : g.toNat < s.groups.length) (hs : s.seq = .busy (.cfgp g b f p) 1) :
    exec (.cfgp g b f p) s =
      .next { s with tmp := (s.group g.toNat).pmuxAt (pinPair b), seq := .busy (.cfgp g b f p) 2 } := by
  rw [exec_of_busy rfl hl hs, State.microStep, State.cfgpStep, State.memRead_pmux hg]
  simp only [lowByte_zeroExtend]

theorem exec_cfgp_writeMux (hl : s.live = true) (hg : g.toNat < s.groups.length) (hs : s.seq = .busy (.cfgp g b f p) 2)
    (hv : pmuxLegal s.numFuncs (nibbleInsert s.tmp (pinOdd b) (funcNumber f)) = true) :
    exec (.cfgp g b f p) s =
      .next { inGroup s g.toNat (fun grp => grp.setPmux (pinPair b) (nibbleInsert s.tmp (pinOdd b) (funcNumber f))) with
        seq := .busy (.cfgp g b f p) 3 } := by
  rw [exec_of_busy rfl hl hs]
  exact State.writeStep_pmux hg (pinPair b) hv _

theorem exec_cfgp_writePincfg (hl : s.live = true) (hg : g.toNat < s.groups.length)
    (hs : s.seq = .busy (.cfgp g b f p) 3) : exec (.cfgp g b f p) s =
      .next { inGroup s g.toNat (fun grp => grp.setPincfg b (pincfgByte (selectsLetter f) (pullOn p))) with
        seq := .busy (.cfgp g b f p) 4 } := by
  rw [exec_of_busy rfl hl hs]
  exact State.writeStep_pincfg hg b (pincfgByte_legal _ _) _

theorem exec_cfgp_leave (hl : s.live = true) (hs : s.seq = .busy (.cfgp g b f p) 4) :
    exec (.cfgp g b f p) s = .next { s with ie := s.token, seq := .idle }.forget :=
  exec_of_busy rfl hl hs

/-- The configuration byte of a pin routed to a peripheral (R113). -/
theorem pincfgByte_routed (p : Pull) : pincfgByte true (pullOn p) = if p = .plus then 0x05 else 0x01 := by
  cases p <;> rfl

/-- The configuration byte of a plain pin (R114). -/
theorem pincfgByte_plain (p : Pull) : pincfgByte false (pullOn p) = if p = .plus then 0x04 else 0x00 := by
  cases p <;> rfl

/-- Settles O22, one rule a micro-step; the byte written is legal because the one read is. -/
theorem cfgpFunctionMicroSteps : Obligations.CfgpFunctionMicroSteps := fun s g b n p ⟨hl, hs⟩ hg hn _ hold => by
  intro i old s1 s2 s3 s4
  have hg4 : g.toNat < s3.groups.length := hg.trans_eq (inGroup_length s2 _ _).symm
  refine ⟨exec_cfgp_guard hl hs, exec_cfgp_readMux (s := s1) hl hg rfl,
    exec_cfgp_writeMux (s := s2) hl hg rfl (pmuxLegal_nibbleInsert hold hn _), ?_, exec_cfgp_leave (s := s4) hl rfl⟩
  rw [exec_cfgp_writePincfg (s := s3) hl hg4 rfl]
  simp only [selectsLetter, pincfgByte_routed]
  rfl

/-- Settles O23, one rule a micro-step. -/
theorem cfgpNoneMicroSteps : Obligations.CfgpNoneMicroSteps := fun s g b p ⟨hl, hs⟩ hg _ => by
  intro i s1 s2
  refine ⟨exec_cfgp_guard hl hs, ?_, exec_cfgp_leave (s := s2) hl rfl⟩
  rw [exec_cfgp_writePincfg (s := s1) hl hg rfl]
  simp only [selectsLetter, pincfgByte_plain]
  rfl

/-! ## A whole CFGP -/

/-- What a whole CFGP makes of its group (R112): with a function its pin's nibble, then the configuration byte. -/
def Group.configured (grp : Group) (b : Pin) (f : FuncSel) (p : Pull) : Group :=
  match f with
  | .gpio => grp.setPincfg b (if p = .plus then 0x04 else 0x00)
  | .letter n =>
    (grp.setPmux (pinPair b) (nibbleInsert (grp.pmuxAt (pinPair b)) (pinOdd b) n)).setPincfg b
      (if p = .plus then 0x05 else 0x01)

/-- A command's first micro-step, and the rest after it. -/
theorem runMicro_succ (h : exec i s = .next t) (n : Nat) : runMicro i (n + 1) s = runMicro i n t := by
  rw [runMicro, h]

/-- A whole CFGP configures its group, and leaves the others. -/
theorem runMicro_cfgp (hs : Accepting s) (hr : s.RegsLegal) (hw : WellFormed s.config (.cfgp g b f p) = true) :
    ∃ t, runMicro (.cfgp g b f p) (microSteps (.cfgp g b f p)) s = .next t ∧
      t.group g.toNat = (s.group g.toNat).configured b f p ∧ ∀ n, n ≠ g.toNat → t.group n = s.group n := by
  simp only [WellFormed, Bool.and_eq_true, decide_eq_true_eq, bne_iff_ne] at hw
  obtain ⟨⟨hg, hf⟩, hp⟩ := hw
  cases f with
  | gpio =>
    obtain ⟨h1, h2, h3⟩ := cfgpNoneMicroSteps s g b p hs hg hp
    refine ⟨_, (runMicro_succ h1 2).trans ((runMicro_succ h2 1).trans (runMicro_succ h3 0)), ?_, fun n hn => ?_⟩
    · exact inGroup_group_same hg _
    · exact inGroup_group_other hn _
  | letter n =>
    have hbyte := (State.regsLegal_iff.mp hr _ hg).pmux (pinPair b)
    obtain ⟨h1, h2, h3, h4, h5⟩ := cfgpFunctionMicroSteps s g b n p hs hg (of_decide_eq_true hf) hp hbyte
    refine ⟨_, (runMicro_succ h1 4).trans ((runMicro_succ h2 3).trans ((runMicro_succ h3 2).trans
      ((runMicro_succ h4 1).trans (runMicro_succ h5 0)))), ?_, fun n hn => ?_⟩
    · exact (inGroup_group_same (hg.trans_eq (inGroup_length ..).symm) _).trans
        (congrArg (Group.setPincfg · b _) (inGroup_group_same hg _))
    · exact (inGroup_group_other hn _).trans (inGroup_group_other hn _)

/-! ## The footprint of CFGP -/

section Configured

variable (grp : Group) (b : Pin) (f : FuncSel) (p : Pull)

theorem pinPair_neighbour : pinPair (neighbour b) = pinPair b := by
  revert b; decide

theorem pinOdd_neighbour : pinOdd (neighbour b) = !pinOdd b := by
  revert b; decide

theorem Group.configured_dir : (grp.configured b f p).dir = grp.dir := by cases f <;> rfl

theorem Group.configured_out : (grp.configured b f p).out = grp.out := by cases f <;> rfl

theorem Group.configured_pmux_gpio : (grp.configured b .gpio p).pmux = grp.pmux := rfl

theorem Group.configured_pincfgAt {c : Pin} (hc : c ≠ b) : (grp.configured b f p).pincfgAt c = grp.pincfgAt c := by
  cases f <;> rw [Group.configured, Group.pincfgAt_setPincfg, if_neg hc]
  rfl

/-- The multiplexer byte of the pin's pair, after a CFGP with a function. -/
theorem Group.configured_pmuxAt_letter (n : BitVec 4) (k : Pair) : (grp.configured b (.letter n) p).pmuxAt k =
    if k = pinPair b then nibbleInsert (grp.pmuxAt (pinPair b)) (pinOdd b) n else grp.pmuxAt k :=
  Group.pmuxAt_setPmux ..

theorem Group.configured_pmuxAt_other {k : Pair} (hk : k ≠ pinPair b) :
    (grp.configured b f p).pmuxAt k = grp.pmuxAt k := by
  cases f with
  | gpio => rfl
  | letter n => rw [Group.configured_pmuxAt_letter, if_neg hk]

/-- The neighbour's nibble is the other one of the same byte (R27), which the insertion keeps (R14). -/
theorem Group.configured_muxNibble_neighbour :
    (grp.configured b f p).muxNibble (neighbour b) = grp.muxNibble (neighbour b) := by
  cases f with
  | gpio => rfl
  | letter n =>
    simp only [Group.muxNibble, pinPair_neighbour, pinOdd_neighbour, Group.configured_pmuxAt_letter, if_true,
      nibble_nibbleInsert_other]

/-- With a function the pin is routed to that peripheral (R30). -/
theorem Group.configured_drive_letter (n : BitVec 4) : (grp.configured b (.letter n) p).drive b = .periph n := by
  have hmux : (grp.configured b (.letter n) p).muxen b = true := by
    rw [Group.muxen, Group.configured, Group.pincfgAt_setPincfg, if_pos rfl]
    split <;> rfl
  have hnibble : (grp.configured b (.letter n) p).muxNibble b = n := by
    rw [Group.muxNibble, Group.configured_pmuxAt_letter, if_pos rfl, nibble_nibbleInsert_same]
  rw [Group.drive, if_pos hmux, hnibble]

end Configured

/-- Settles O26: the other groups are kept, and each clause about its own group is one about `Group.configured`. -/
theorem cfgpFootprint : Obligations.CfgpFootprint := fun s g b f p hs hr hw => by
  obtain ⟨t, hrun, hown, hother⟩ := runMicro_cfgp hs hr hw
  refine ⟨t, hrun, hother, ?_⟩
  rw [hown]
  refine ⟨fun c => Group.configured_pincfgAt _ b f p, fun k => Group.configured_pmuxAt_other _ b f p,
    Group.configured_muxNibble_neighbour _ b f p, Group.configured_dir _ b f p, Group.configured_out _ b f p, ?_, ?_⟩
  · rintro rfl; exact Group.configured_pmux_gpio _ b p
  · rintro n rfl; exact Group.configured_drive_letter _ b p n

end Sys2Proof.Machine
end

section
/-! PROOFS. Which registers an instruction may write, register by register of the bus map (20_memory.md R52), and what a write
to one of them leaves (40_peripheral_mux.md R112, 41_output.md R130, 42_input.md R160, 43_bus_access.md R180 to R189). -/

namespace Sys2Proof.Machine

open Sys2Proof Sys2Proof.Claims

variable {i : Instr} {r : Reg}

/-- Whether an instruction may write the contents that a write to register `r` changes: `DIR`, `OUT`, `PMUX` or `PINCFG`. -/
def mayWrite (i : Instr) : Reg → Bool
  | .dirclr | .dirset => mayWriteDir i
  | .outclr | .outset | .outtgl => mayWriteOut i
  | .inp => false
  | .pmux _ => mayWritePmux i
  | .pincfg _ => mayWritePincfg i

theorem mayWrite_levelReg (h : mayWriteOut i = true) (v : Bool) : mayWrite i (levelReg v) = true := by
  cases v <;> exact h

/-- The registers that `exec_next` gives an instruction are among those the statement names for it. -/
theorem mayWrite_of_writesReg (h : writesReg i r) : mayWrite i r = true := by
  cases i with
  | cfgp => obtain rfl | rfl := h <;> rfl
  | osetup _ v | oreset _ _ v =>
    obtain rfl | rfl | rfl := h
    · exact mayWrite_levelReg rfl v
    · rfl
    · rfl
  | owrite _ _ v => subst h; exact mayWrite_levelReg rfl v
  | isetup | ireset => obtain rfl | rfl := h <;> rfl
  | iread | ldwIn | ldbPmux | ldbPincfg => exact h.elim
  | _ => subst h; rfl

/-- A write to a register that an instruction may write leaves the contents that it may not. -/
theorem Group.write_leaves (h : mayWrite i r = true) (grp : Group) (v : Word) :
    (mayWriteDir i = false → (grp.write v r).dir = grp.dir) ∧
    (mayWriteOut i = false → (grp.write v r).out = grp.out) ∧
    (mayWritePincfg i = false → (grp.write v r).pincfg = grp.pincfg) ∧
    (mayWritePmux i = false → (grp.write v r).pmux = grp.pmux) := by
  cases r with
  | dirclr | dirset => exact ⟨fun hn => (nomatch hn.symm.trans h), fun _ => rfl, fun _ => rfl, fun _ => rfl⟩
  | outclr | outset | outtgl => exact ⟨fun _ => rfl, fun hn => (nomatch hn.symm.trans h), fun _ => rfl, fun _ => rfl⟩
  | inp => cases h
  | pincfg => exact ⟨fun _ => rfl, fun _ => rfl, fun hn => (nomatch hn.symm.trans h), fun _ => rfl⟩
  | pmux => exact ⟨fun _ => rfl, fun _ => rfl, fun _ => rfl, fun hn => (nomatch hn.symm.trans h)⟩

/-- Settles O32: an instruction leaves a group as it is, or makes one write that it may. -/
theorem registerWriters : Obligations.RegisterWriters := fun i s t g h => by
  obtain hsame | ⟨r, v, hw, -, -, -, hwrote⟩ := (exec_next h).2.group g
  · rw [hsame]
    exact ⟨fun _ => rfl, fun _ => rfl, fun _ => rfl, fun _ => rfl⟩
  · rw [hwrote]
    exact Group.write_leaves (mayWrite_of_writesReg hw) _ v

end Sys2Proof.Machine
end

section
/-! PROOFS. The output handle commands of one micro-step: what OWRITE and the two toggles make of the latch (41_output.md R136,
R138 to R140). -/

namespace Sys2Proof.Machine

open Sys2Proof Sys2Proof.Claims

variable {s : State} {g : Port} {b : Pin} {v : Bool} {grp : Group}

/-! ## A micro-step that writes a word register -/

/-- A micro-step that writes a word register (20_memory.md R56 to R60, R64). -/
theorem State.writeStep_word {n : Nat} (hg : n < s.groups.length) {r : Reg} (hw : r.width = 4) (hr : r.writable = true)
    (x : Word) (q : Seq) : s.writeStep (s.addr n r.offset) 4 x q = .next { s.writeReg n r x with seq := q } :=
  State.writeStep_ok (State.memWrite_word hg r hw hr x) q

/-- The micro-step of a command that writes one word register with its pin's mask, from an idle sequencer, which stays idle. -/
theorem State.wordStep_zero (hs : s.seq = .idle) (hg : g.toNat < s.groups.length) {r : Reg} (hw : r.width = 4)
    (hr : r.writable = true) : s.wordStep g b r 0 = .next (s.writeReg g.toNat r (pinMask b)) := by
  have hidle : { s.writeReg g.toNat r (pinMask b) with seq := .idle } = s.writeReg g.toNat r (pinMask b) := by
    rw [← hs]; rfl
  rw [State.wordStep, State.writeStep_word hg hw hr, hidle]

/-- The pin's mask written to OUTSET or OUTCLR stages its level. -/
theorem Group.write_levelReg (grp : Group) (b : Pin) (v : Bool) : grp.write (pinMask b) (levelReg v) = stage grp b v := by
  cases v <;> rfl

theorem State.writeReg_levelReg (s : State) (n : Nat) (b : Pin) (v : Bool) :
    s.writeReg n (levelReg v) (pinMask b) = inGroup s n fun grp => stage grp b v := by
  simp only [State.writeReg, inGroup, Group.write_levelReg]

/-- A write with a pin's mask changes at most that pin's latch bit. -/
theorem Group.write_pinMask_out {n : Nat} (hn : n < 32) (grp : Group) (b : Pin) (r : Reg) :
    (grp.write (pinMask b) r).out.getLsbD n =
      if n = b.toNat then writtenOutBit r (grp.out.getLsbD n) else grp.out.getLsbD n := by
  simp only [Group.write_out_getLsbD hn, pinMask_getLsbD, decide_eq_true_eq]

theorem writtenOutBit_levelReg (v d : Bool) : writtenOutBit (levelReg v) d = v := by
  cases v <;> rfl

/-! ## OWRITE and the toggles -/

theorem exec_owrite (hs : Accepting s) (hg : g.toNat < s.groups.length) :
    exec (.owrite g b v) s = .next (s.writeReg g.toNat (levelReg v) (pinMask b)) :=
  (exec_of_idle rfl hs.1 hs.2).trans (State.wordStep_zero hs.2 hg (levelReg_width v) (levelReg_writable v))

/-- Both toggles have one effect (R139). -/
theorem exec_toggle {i : Instr} (hi : i = .otoggle g b ∨ i = .otoggleNoirq g b) (hs : Accepting s)
    (hg : g.toNat < s.groups.length) : exec i s = .next (s.writeReg g.toNat .outtgl (pinMask b)) := by
  rcases hi with rfl | rfl <;> exact (exec_of_idle rfl hs.1 hs.2).trans (State.wordStep_zero hs.2 hg rfl rfl)

/-- Settles O15: OWRITE writes its pin's mask to the register of its level. -/
theorem owriteEffect : Obligations.OwriteEffect := fun s g b v hs hg => by
  refine ⟨_, exec_owrite hs hg, s.writeReg_levelReg _ b v, fun n hn => ?_⟩
  rw [State.group_writeReg_same hg, Group.write_pinMask_out hn, writtenOutBit_levelReg]

/-- Settles O16: both toggles write their pin's mask to OUTTGL. -/
theorem otoggleEffect : Obligations.OtoggleEffect := fun s g b hs hg => by
  refine ⟨_, exec_toggle (.inl rfl) hs hg, exec_toggle (.inr rfl) hs hg, rfl, fun n hn => ?_⟩
  rw [State.group_writeReg_same hg, Group.write_pinMask_out hn]; rfl

theorem Group.write_outtgl_twice (grp : Group) (x : Word) : (grp.write x .outtgl).write x .outtgl = grp := by
  simp only [Group.write, BitVec.xor_assoc, BitVec.xor_self, BitVec.xor_zero]

theorem State.writeReg_outtgl_twice (s : State) (n : Nat) (x : Word) :
    (s.writeReg n .outtgl x).writeReg n .outtgl x = s := by
  have hid : (fun grp : Group => grp.write x .outtgl) ∘ (fun grp => grp.write x .outtgl) = id :=
    funext fun grp => grp.write_outtgl_twice x
  simp only [State.writeReg, List.modify_modify_eq, hid, List.modify_id]

/-- Settles O29: the second toggle is accepted where the first was, and flips the bit back. -/
theorem togglesCancel : Obligations.TogglesCancel := fun s g b i j hs hg hi hj => by
  have hagain := exec_toggle (s := s.writeReg g.toNat .outtgl (pinMask b)) hj hs (hg.trans_eq (s.writeReg_length ..).symm)
  exact ⟨_, exec_toggle hi hs hg, hagain.trans (congrArg _ (s.writeReg_outtgl_twice ..))⟩

end Sys2Proof.Machine
end

section
/-! PROOFS. ORESET and OSETUP: their micro-steps, each state whole (41_output.md R131, R133), and the drive at every boundary
between them (R134). -/

namespace Sys2Proof.Machine

open Sys2Proof Sys2Proof.Claims

variable {s : State} {i : Instr} {g : Port} {b : Pin} {v : Bool} {r : Option Result} {n : Nat}

/-! ## The micro-steps of ORESET and OSETUP -/

/-- A command that runs the output sequence on a pin and delivers `r`; micro-step 0 on a group that exists. -/
structure OutputCommand (i : Instr) (g : Port) (b : Pin) (v : Bool) (r : Option Result) : Prop where
  target_isSome : (target i).isSome = true
  microStep_zero : ∀ s : State, g.toNat < s.groups.length → s.microStep i 0 = s.outputStep i g b v r 0
  microStep_succ : ∀ (s : State) (k : Nat), s.microStep i (k + 1) = s.outputStep i g b v r (k + 1)

theorem outputCommand_oreset (g : Port) (b : Pin) (v : Bool) : OutputCommand (.oreset g b v) g b v none :=
  ⟨rfl, fun _ _ => rfl, fun _ _ => rfl⟩

/-- OSETUP's pin check passes where the pin's port exists (R131). -/
theorem outputCommand_osetup (pin : PinId) (v : Bool) :
    OutputCommand (.osetup pin v) (pinPort pin) (pinBit pin) v (some (handleOf pin)) := by
  refine ⟨rfl, fun s hg => if_neg fun h => ?_, fun s k => State.microStep_osetup (Nat.succ_ne_zero k) pin v⟩
  exact absurd (of_decide_eq_true h.2) (Nat.not_le.mpr hg)

/-- What micro-step `k` of the output sequence makes of its group (R133): the level, the direction, the configuration. -/
def Group.outputWrite (b : Pin) (v : Bool) : Nat → Group → Group
  | 1, grp => stage grp b v
  | 2, grp => { grp with dir := grp.dir ||| pinMask b }
  | 3, grp => grp.setPincfg b 0x00
  | _, grp => grp

/-- What micro-step `k` of the output sequence on group `n` makes of a state. -/
def State.outputNext (i : Instr) (n : Nat) (b : Pin) (v : Bool) (r : Option Result) : Nat → State → State
  | 0, t => { t with token := t.ie, ie := false, seq := .busy i 1 }
  | 1, t => { inGroup t n (Group.outputWrite b v 1) with seq := .busy i 2 }
  | 2, t => { inGroup t n (Group.outputWrite b v 2) with seq := .busy i 3 }
  | 3, t => { inGroup t n (Group.outputWrite b v 3) with seq := .busy i 4 }
  | _ + 4, t => { t with ie := t.token, seq := .idle }.forget.deliver r

/-- The state at the boundary after the first `k` micro-steps of the output sequence. -/
def State.outputBoundary (s : State) (i : Instr) (n : Nat) (b : Pin) (v : Bool) (r : Option Result) : Nat → State
  | 0 => s
  | k + 1 => State.outputNext i n b v r k (s.outputBoundary i n b v r k)

theorem State.outputNext_length (t : State) (k : Nat) :
    (State.outputNext i n b v r k t).groups.length = t.groups.length := by
  match k with
  | 0 => rfl
  | 1 | 2 | 3 => exact inGroup_length ..
  | _ + 4 => exact congrArg List.length (State.deliver_groups _ r)

theorem State.outputBoundary_length (s : State) (k : Nat) :
    (s.outputBoundary i n b v r k).groups.length = s.groups.length := by
  induction k with
  | zero => rfl
  | succ k ih => exact (State.outputNext_length _ k).trans ih

/-- Each micro-step of the output sequence is admitted on a group that exists. -/
theorem State.outputStep_eq (hg : g.toNat < s.groups.length) {k : Nat} (hk : k < 5) :
    s.outputStep i g b v r k = .next (State.outputNext i g.toNat b v r k s) := by
  match k with
  | 0 | 4 => rfl
  | 1 =>
    rw [State.outputStep, State.writeStep_word hg (levelReg_width v) (levelReg_writable v), State.writeReg_levelReg]
    rfl
  | 2 => exact State.writeStep_word hg (r := .dirset) rfl rfl _ _
  | 3 => exact State.writeStep_pincfg hg b (v := 0x00) (by decide) _
  | _ + 5 => omega

/-- Each of the five micro-steps goes from its boundary to the next. -/
theorem OutputCommand.exec_boundary (hi : OutputCommand i g b v r) (hs : Accepting s) (hg : g.toNat < s.groups.length)
    {k : Nat} (hk : k < 5) :
    exec i (s.outputBoundary i g.toNat b v r k) = .next (s.outputBoundary i g.toNat b v r (k + 1)) := by
  obtain ⟨hl, hidle⟩ := hs
  have hg' : g.toNat < (s.outputBoundary i g.toNat b v r k).groups.length := by rwa [State.outputBoundary_length]
  refine Eq.trans ?_ (State.outputStep_eq hg' hk)
  have hbusy {j : Nat} (hlive : (s.outputBoundary i g.toNat b v r (j + 1)).live = true)
      (hseq : (s.outputBoundary i g.toNat b v r (j + 1)).seq = .busy i (j + 1)) :=
    (exec_of_busy hi.target_isSome hlive hseq).trans (hi.microStep_succ _ j)
  match k with
  | 0 => exact (exec_of_idle hi.target_isSome hl hidle).trans (hi.microStep_zero s hg)
  | 1 | 2 | 3 | 4 => exact hbusy hl rfl
  | _ + 5 => omega

/-- Settles O18, one boundary after the other; ORESET delivers nothing. -/
theorem oresetMicroSteps : Obligations.OresetMicroSteps := fun s g b v hs hg => by
  have hstep {k : Nat} (hk : k < 5) := (outputCommand_oreset g b v).exec_boundary hs hg hk
  exact ⟨hstep (k := 0) (by decide), hstep (k := 1) (by decide), hstep (k := 2) (by decide), hstep (k := 3) (by decide),
    hstep (k := 4) (by decide)⟩

/-- Settles O19, in the same way; OSETUP delivers its handle. -/
theorem osetupMicroSteps : Obligations.OsetupMicroSteps := fun s pin v hs hg => by
  have hstep {k : Nat} (hk : k < 5) := (outputCommand_osetup pin v).exec_boundary hs (by rwa [pinPort_toNat]) hk
  simp only [pinPort_toNat] at hstep
  exact ⟨hstep (k := 0) (by decide), hstep (k := 1) (by decide), hstep (k := 2) (by decide), hstep (k := 3) (by decide),
    hstep (k := 4) (by decide)⟩

/-! ## A run of micro-steps -/

/-- A command whose micro-steps go along the states `f` runs along them. -/
theorem runMicro_of_boundaries {f : Nat → State} (h : ∀ k, k < n → exec i (f k) = .next (f (k + 1))) :
    runMicro i n (f 0) = .next (f n) := by
  induction n generalizing f with
  | zero => rfl
  | succ n ih =>
    exact (runMicro_succ (h 0 n.succ_pos) n).trans
      (ih (f := fun k => f (k + 1)) fun k hk => h (k + 1) (Nat.succ_lt_succ hk))

/-! ## The drive at the boundaries -/

/-- The port group at the boundary after the first `k` micro-steps of the output sequence. -/
def Group.outputBoundary (grp : Group) (b : Pin) (v : Bool) : Nat → Group
  | 0 => grp
  | k + 1 => Group.outputWrite b v k (grp.outputBoundary b v k)

theorem State.group_outputNext {t : State} (hn : n < t.groups.length) (k : Nat) :
    (State.outputNext i n b v r k t).group n = Group.outputWrite b v k (t.group n) := by
  match k with
  | 0 => rfl
  | 1 | 2 | 3 => exact inGroup_group_same hn _
  | _ + 4 => exact State.deliver_group _ r n

theorem State.group_outputBoundary (hn : n < s.groups.length) (k : Nat) :
    (s.outputBoundary i n b v r k).group n = (s.group n).outputBoundary b v k := by
  induction k with
  | zero => rfl
  | succ k ih =>
    exact (State.group_outputNext (by rwa [State.outputBoundary_length]) k).trans (congrArg _ ih)

theorem stage_out_getLsbD (grp : Group) (b : Pin) (v : Bool) : (stage grp b v).out.getLsbD b.toNat = v := by
  rw [← Group.write_levelReg, Group.write_pinMask_out b.isLt, if_pos rfl, writtenOutBit_levelReg]

section OutputBoundary
variable (grp : Group) (b : Pin) (v : Bool)

theorem Group.outputBoundary_out (hend : n ≤ 5) (hn : 2 ≤ n) : (grp.outputBoundary b v n).out.getLsbD b.toNat = v := by
  match n with
  | 2 | 3 | 4 | 5 => exact stage_out_getLsbD grp b v

theorem Group.outputBoundary_dir (hend : n ≤ 5) (hn : 3 ≤ n) : (grp.outputBoundary b v n).dir.getLsbD b.toNat = true := by
  have hset : (grp.dir ||| pinMask b).getLsbD b.toNat = true := by
    rw [getLsbD_set, pinMask_getLsbD, decide_eq_true rfl, if_pos rfl]
  match n with
  | 3 | 4 | 5 => exact hset

theorem Group.outputBoundary_dir_old (hn : n ≤ 2) : (grp.outputBoundary b v n).dir = grp.dir := by
  match n with
  | 0 | 1 | 2 => rfl

theorem Group.outputBoundary_muxen (hend : n ≤ 5) (hn : 4 ≤ n) : (grp.outputBoundary b v n).muxen b = false := by
  match n with
  | 4 | 5 =>
    simp only [Group.outputBoundary, Group.outputWrite, Group.muxen, Group.pincfgAt_setPincfg, if_true]
    rfl

theorem Group.outputBoundary_muxen_old (hn : n ≤ 3) : (grp.outputBoundary b v n).muxen b = grp.muxen b := by
  match n with
  | 0 | 1 | 2 | 3 => rfl

/-- From the end of micro-step 1 on the pin is the peripheral's while the old `MUXEN` holds, undriven while the old direction bit
does, or drives `v` (R134). -/
theorem Group.outputBoundary_drive (hend : n ≤ 5) (hn : 2 ≤ n) :
    (∃ f, (grp.outputBoundary b v n).drive b = .periph f ∧ n ≤ 3 ∧ grp.muxen b = true) ∨
      (∃ p, (grp.outputBoundary b v n).drive b = .undriven p ∧ n = 2 ∧ grp.dir.getLsbD b.toNat = false) ∨
      (grp.outputBoundary b v n).drive b = .driven v := by
  unfold Group.drive
  split
  · next hm =>
    have hle : n ≤ 3 := Nat.le_of_not_lt fun h => nomatch hm.symm.trans (grp.outputBoundary_muxen b v hend h)
    exact .inl ⟨_, rfl, hle, (grp.outputBoundary_muxen_old b v hle).symm.trans hm⟩
  · split
    · exact .inr (.inr (congrArg _ (grp.outputBoundary_out b v hend hn)))
    · next hd =>
      have hle : n ≤ 2 := Nat.le_of_not_lt fun h => hd (grp.outputBoundary_dir b v hend h)
      rw [grp.outputBoundary_dir_old b v hle] at hd
      exact .inr (.inl ⟨_, rfl, Nat.le_antisymm hle hn, Bool.eq_false_iff.mpr hd⟩)

end OutputBoundary

theorem OutputCommand.runMicro_group (hi : OutputCommand i g b v r) (hs : Accepting s) (hg : g.toNat < s.groups.length)
    (hn : n ≤ 5) : ∃ t, runMicro i n s = .next t ∧ t.group g.toNat = (s.group g.toNat).outputBoundary b v n :=
  ⟨_, runMicro_of_boundaries (f := s.outputBoundary i g.toNat b v r)
    fun _ hk => hi.exec_boundary hs hg (Nat.lt_of_lt_of_le hk hn), State.group_outputBoundary hg n⟩

/-- Settles O27: both commands run the output sequence on the pin, and the drive at its boundaries is one of the three. -/
theorem outputGlitchFree : Obligations.OutputGlitchFree := fun s g b v i hs hg hi n hn => by
  obtain ⟨r, hi⟩ : ∃ r, OutputCommand i g b v r := by
    rcases hi with rfl | rfl
    · exact ⟨_, outputCommand_oreset g b v⟩
    · have hpin := outputCommand_osetup (pinOf g b) v
      rw [show pinPort (pinOf g b) = g from port_pinOf g b, show pinBit (pinOf g b) = b from bit_pinOf g b] at hpin
      exact ⟨_, hpin⟩
  obtain ⟨t, hrun, hgroup⟩ := hi.runMicro_group hs hg hn
  refine ⟨t, hrun, fun hle => ?_, fun hle => ?_⟩
  · rw [hgroup]
    match n with
    | 0 | 1 => rfl
  · rw [hgroup]
    obtain ⟨f, hd, h⟩ | ⟨p, hd, h⟩ | hd := (s.group g.toNat).outputBoundary_drive b v hn hle
    · rw [hd]; exact h
    · rw [hd]; exact h
    · rw [hd]

end Sys2Proof.Machine
end

section
/-! PROOFS. The frame of a command's micro-step: in every state that meets the invariant it keeps every pin but its own
(40_peripheral_mux.md R116, 41_output.md R130, 42_input.md R160). -/

namespace Sys2Proof.Machine

open Sys2Proof Sys2Proof.Claims

variable {s t : State} {i : Instr} {g : Port} {b c : Pin} {k : Nat} {old new : Group}

/-! ## A pin that a change of its group keeps -/

/-- Two groups agree on pin `c`: its direction bit, latch bit, configuration byte and multiplexer nibble. -/
def Group.AgreeAt (c : Pin) (old new : Group) : Prop :=
  new.dir.getLsbD c.toNat = old.dir.getLsbD c.toNat ∧ new.out.getLsbD c.toNat = old.out.getLsbD c.toNat ∧
    new.pincfgAt c = old.pincfgAt c ∧ new.muxNibble c = old.muxNibble c

theorem Group.AgreeAt.of_eq (h : new = old) : old.AgreeAt c new := h ▸ ⟨rfl, rfl, rfl, rfl⟩

theorem bitRegister_levelReg (v : Bool) : BitRegister (levelReg v) := by
  cases v with
  | false => exact .inr (.inr (.inl rfl))
  | true => exact .inr (.inr (.inr (.inl rfl)))

/-- A pin's mask written to a bit register keeps the other pins. -/
theorem Group.agreeAt_write_pinMask {r : Reg} (hr : BitRegister r) (hc : c ≠ b) (grp : Group) :
    grp.AgreeAt c (grp.write (pinMask b) r) := by
  have hbit : (pinMask b).getLsbD c.toNat = false := by
    rw [pinMask_getLsbD, decide_eq_false fun h => hc (BitVec.eq_of_toNat_eq h)]
  obtain ⟨hpincfg, hpmux⟩ := Group.write_bytes_of_bitRegister (grp := grp) (v := pinMask b) hr
  refine ⟨?_, ?_, ?_, ?_⟩
  · rw [Group.write_dir_getLsbD c.isLt, hbit]; rfl
  · rw [Group.write_out_getLsbD c.isLt, hbit]; rfl
  · simp only [Group.pincfgAt, hpincfg]
  · simp only [Group.muxNibble, Group.pmuxAt, hpmux]

/-- A write of a pin's configuration byte keeps the other pins. -/
theorem Group.agreeAt_write_pincfg (hc : c ≠ b) (grp : Group) (v : Word) : grp.AgreeAt c (grp.write v (.pincfg b)) :=
  ⟨rfl, rfl, (Group.pincfgAt_setPincfg ..).trans (if_neg hc), rfl⟩

/-- A pin is its pair and its place in the pair (R27). -/
theorem pin_eq_of_pair (hpair : pinPair c = pinPair b) (hodd : pinOdd c = pinOdd b) : c = b := by
  apply BitVec.eq_of_getLsbD_eq
  intro j hj
  match j with
  | 0 => exact hodd
  | j + 1 =>
    have hbit := congrArg (fun p : Pair => p.getLsbD j) hpair
    simpa only [pinPair, BitVec.getLsbD_extractLsb', decide_eq_true (show j < 4 by omega), Bool.true_and,
      Nat.add_comm 1 j] using hbit

/-- A write of a pin's multiplexer byte as it was, but for the pin's nibble, keeps the other pins (R14). -/
theorem Group.agreeAt_write_pmux (hc : c ≠ b) (grp : Group) (n : BitVec 4) : grp.AgreeAt c
    (grp.write ((nibbleInsert (grp.pmuxAt (pinPair b)) (pinOdd b) n).zeroExtend 32) (.pmux (pinPair b))) := by
  refine ⟨rfl, rfl, rfl, ?_⟩
  rw [Group.write_pmux_zeroExtend, Group.muxNibble, Group.pmuxAt_setPmux]
  split
  · next hpair =>
    have hodd : pinOdd c = !pinOdd b := Bool.eq_not_of_ne fun hodd => hc (pin_eq_of_pair hpair hodd)
    rw [hodd, nibble_nibbleInsert_other, ← hodd, ← hpair]
    rfl
  · rfl

/-! ## Micro-steps -/

/-- A writing micro-step keeps a pin that its write keeps. -/
theorem agreeAt_of_writeStep {n w : Nat} {r : Reg} {v : Word} {q : Seq}
    (h : s.writeStep (s.addr n r.offset) w v q = .next t) (hw : (s.group n).AgreeAt c ((s.group n).write v r)) :
    (s.group n).AgreeAt c (t.group n) := by
  obtain ⟨rfl, hn, -⟩ | ⟨e, rfl⟩ := State.writeStep_next h
  · exact (State.group_writeReg_same (s := s) hn r v).symm ▸ hw
  · exact .of_eq rfl

theorem agreeAt_of_wordStep {r : Reg} (hr : BitRegister r) (hc : c ≠ b) (h : s.wordStep g b r k = .next t) :
    (s.group g.toNat).AgreeAt c (t.group g.toNat) := by
  match k with
  | 0 => exact agreeAt_of_writeStep h (Group.agreeAt_write_pinMask hr hc _)
  | _ + 1 => cases h

theorem agreeAt_of_outputStep {v : Bool} {r : Option Result} (hc : c ≠ b) (h : s.outputStep i g b v r k = .next t) :
    (s.group g.toNat).AgreeAt c (t.group g.toNat) := by
  match k with
  | 0 => cases h; exact .of_eq rfl
  | 1 => exact agreeAt_of_writeStep h (Group.agreeAt_write_pinMask (bitRegister_levelReg v) hc _)
  | 2 => exact agreeAt_of_writeStep (r := .dirset) h (Group.agreeAt_write_pinMask (.inr (.inl rfl)) hc _)
  | 3 => exact agreeAt_of_writeStep h (Group.agreeAt_write_pincfg hc _ _)
  | 4 => cases h; exact .of_eq (State.deliver_group ..)
  | _ + 5 => cases h

theorem agreeAt_of_inputStep {p : Pull} {r : Option Result} (hc : c ≠ b) (h : s.inputStep i g b p r k = .next t) :
    (s.group g.toNat).AgreeAt c (t.group g.toNat) := by
  match k with
  | 0 => cases h; exact .of_eq rfl
  | 1 => exact agreeAt_of_writeStep h (Group.agreeAt_write_pincfg hc _ _)
  | 2 => exact agreeAt_of_writeStep (r := .dirclr) h (Group.agreeAt_write_pinMask (.inl rfl) hc _)
  | 3 => cases h; exact .of_eq (State.deliver_group ..)
  | _ + 4 => cases h

/-- CFGP's write of the multiplexer byte keeps the other pin of the pair because `TMP` holds that byte. -/
theorem agreeAt_of_cfgpStep {f : FuncSel} {p : Pull} (hc : c ≠ b)
    (htmp : k = 2 → s.tmp = (s.group g.toNat).pmuxAt (pinPair b)) (h : s.cfgpStep i g b f p k = .next t) :
    (s.group g.toNat).AgreeAt c (t.group g.toNat) := by
  match k with
  | 0 => cases h; exact .of_eq rfl
  | 1 =>
    simp only [State.cfgpStep] at h
    split at h
    · next v u hread =>
      obtain ⟨-, hread⟩ := State.memRead_addr hread
      cases hread; cases h
      exact .of_eq rfl
    · obtain ⟨e, -, rfl⟩ := State.reject_next h
      exact .of_eq rfl
  | 2 =>
    refine agreeAt_of_writeStep h ?_
    rw [htmp rfl]
    exact Group.agreeAt_write_pmux hc _ _
  | 3 => exact agreeAt_of_writeStep h (Group.agreeAt_write_pincfg hc _ _)
  | 4 => cases h; exact .of_eq rfl
  | _ + 5 => cases h

/-- IREAD writes no register of any group (R166). -/
theorem group_of_exec_iread (h : exec (.iread g b) s = .next t) (n : Nat) : t.group n = s.group n := by
  obtain hsame | ⟨r, v, hw, -⟩ := (exec_next h).2.group n
  · exact hsame
  · exact hw.elim

/-! ## Commands -/

/-- Where the invariant holds `TMP` has the multiplexer byte that CFGP is about to write. -/
theorem State.Inv.cfgp_tmp (h : s.Inv) {f : FuncSel} {p : Pull} (hs : s.seq = .busy (.cfgp g b f p) 2) :
    s.tmp = (s.group g.toNat).pmuxAt (pinPair b) := by
  obtain ⟨-, -, -, -, hcfgp⟩ := h.seq.of_busy hs
  obtain ⟨hnone, htmp⟩ := hcfgp g b f p rfl
  cases hsel : selectsLetter f with
  | false => exact absurd (hnone hsel) (by decide)
  | true => exact htmp hsel rfl

/-- A command's step is one of its micro-steps, the one its sequencer is at or the first. -/
theorem microStep_of_exec (hi : (target i).isSome = true) (h : exec i s = .next t) :
    ∃ k, s.microStep i k = .next t ∧ (k = 0 ∨ s.seq = .busy i k) := by
  rw [exec_eq_sequence hi] at h
  obtain ⟨-, ⟨-, h⟩ | ⟨k, hs, h⟩⟩ := State.sequence_next h
  · exact ⟨0, h, .inl rfl⟩
  · exact ⟨k, h, .inr hs⟩

/-- A setup command's halt keeps every pin, and the rest of its micro-steps are those of a handle command. -/
theorem agreeAt_of_setup {e : FatalCode} {pin : PinId} {n : Nat} {act : Host.Outcome State Fault Refusal}
    (h : (if k = 0 ∧ s.badPin pin = true then s.raiseFatal e else act) = .next t)
    (hact : act = .next t → (s.group n).AgreeAt c (t.group n)) : (s.group n).AgreeAt c (t.group n) := by
  split at h
  · cases h; exact .of_eq rfl
  · exact hact h

/-- In its own group a command keeps every pin but its own. -/
theorem agreeAt_of_exec (hinv : s.Inv) {n : Nat} (hi : target i = some (n, b)) (hc : c ≠ b) (h : exec i s = .next t) :
    (s.group n).AgreeAt c (t.group n) := by
  obtain ⟨k, hstep, hk⟩ := microStep_of_exec (by rw [hi]; rfl) h
  cases i with
  | cfgp g b' f p =>
    cases hi
    refine agreeAt_of_cfgpStep hc (fun hk2 => hinv.cfgp_tmp (f := f) (p := p) ?_) hstep
    subst hk2
    exact hk.resolve_left (by decide)
  | osetup pin v => cases hi; exact agreeAt_of_setup hstep (agreeAt_of_outputStep hc)
  | oreset g b' v => cases hi; exact agreeAt_of_outputStep hc hstep
  | owrite g b' v => cases hi; exact agreeAt_of_wordStep (bitRegister_levelReg v) hc hstep
  | otoggle g b' | otoggleNoirq g b' =>
    cases hi; exact agreeAt_of_wordStep (r := .outtgl) (.inr (.inr (.inr (.inr rfl)))) hc hstep
  | isetup pin p => cases hi; exact agreeAt_of_setup hstep (agreeAt_of_inputStep hc)
  | ireset g b' p => cases hi; exact agreeAt_of_inputStep hc hstep
  | iread g b' => exact .of_eq (group_of_exec_iread h n)
  | _ => cases hi

theorem groupOf_of_target {n : Nat} (hi : target i = some (n, b)) : groupOf i = n := by
  cases i <;> cases hi <;> rfl

/-- Settles O34: the other groups are kept whole, and in its own group the command keeps the other pins. -/
theorem commandsTouchOnePin : Obligations.CommandsTouchOnePin := fun i s t g b hinv hi h g' b' hne => by
  by_cases hg : g' = g
  · subst hg
    exact agreeAt_of_exec hinv hi (fun hb => hne (congrArg _ hb)) h
  · have hother := (groupsIndependent i s t h).2 g' (by rwa [groupOf_of_target hi])
    exact Group.AgreeAt.of_eq hother

end Sys2Proof.Machine
end

section
/-! PROOFS. The input handle commands: the micro-steps of IRESET and ISETUP, each state whole (42_input.md R161 to R164), the
stale latch they let through (R165), and IREAD, which after OSETUP reads the level back (R166, R167). -/

namespace Sys2Proof.Machine

open Sys2Proof Sys2Proof.Claims

variable {s : State} {i : Instr} {g : Port} {b : Pin} {p : Pull} {r : Option Result}

/-! ## The micro-steps of IRESET and ISETUP -/

/-- A command that, on a group that exists, runs the input sequence on a pin and delivers `r`. -/
structure InputCommand (i : Instr) (g : Port) (b : Pin) (p : Pull) (r : Option Result) : Prop where
  target_isSome : (target i).isSome = true
  microStep_eq : ∀ (s : State) (k : Nat), g.toNat < s.groups.length → s.microStep i k = s.inputStep i g b p r k

theorem inputCommand_ireset (g : Port) (b : Pin) (p : Pull) : InputCommand (.ireset g b p) g b p none :=
  ⟨rfl, fun _ _ _ => rfl⟩

/-- ISETUP's pin check passes where the pin's port exists (R161). -/
theorem inputCommand_isetup (pin : PinId) (p : Pull) :
    InputCommand (.isetup pin p) (pinPort pin) (pinBit pin) p (some (handleOf pin)) :=
  ⟨rfl, fun _ _ hg => if_neg fun h => absurd (of_decide_eq_true h.2) (Nat.not_le.mpr hg)⟩

theorem InputCommand.exec_of_idle (hi : InputCommand i g b p r) (hs : Accepting s) (hg : g.toNat < s.groups.length) :
    exec i s = s.inputStep i g b p r 0 :=
  (Machine.exec_of_idle hi.target_isSome hs.1 hs.2).trans (hi.microStep_eq s 0 hg)

theorem InputCommand.exec_of_busy (hi : InputCommand i g b p r) (hl : s.live = true) (hg : g.toNat < s.groups.length)
    {k : Nat} (hs : s.seq = .busy i k) : exec i s = s.inputStep i g b p r k :=
  (Machine.exec_of_busy hi.target_isSome hl hs).trans (hi.microStep_eq s k hg)

/-- What micro-step 1 of the input sequence makes of its group: a plain pin, its pull on only for a positive request (R164). -/
def Group.unrouted (grp : Group) (b : Pin) (p : Pull) : Group := grp.setPincfg b (if p = .plus then 0x04 else 0x00)

/-- What micro-step 2 of the input sequence makes of its group: the pin's direction bit cleared. -/
def Group.undirected (grp : Group) (b : Pin) : Group := { grp with dir := grp.dir &&& ~~~(pinMask b) }

theorem State.inputStep_one (hg : g.toNat < s.groups.length) : s.inputStep i g b p r 1 =
    .next { inGroup s g.toNat (fun grp => grp.unrouted b p) with seq := .busy i 2 } := by
  rw [State.inputStep, State.writeStep_pincfg hg b (pincfgByte_legal _ _), pincfgByte_plain]
  rfl

theorem State.inputStep_two (hg : g.toNat < s.groups.length) : s.inputStep i g b p r 2 =
    .next { inGroup s g.toNat (fun grp => grp.undirected b) with seq := .busy i 3 } :=
  State.writeStep_word hg (r := .dirclr) rfl rfl _ _

/-- The four micro-steps of the input sequence, of which the last delivers the command's result (R161, R163). -/
theorem InputCommand.microSteps (hi : InputCommand i g b p r) (hs : Accepting s) (hg : g.toNat < s.groups.length) :
    let s1 := { s with token := s.ie, ie := false, seq := .busy i 1 }
    let s2 := { inGroup s1 g.toNat (fun grp => grp.unrouted b p) with seq := .busy i 2 }
    let s3 := { inGroup s2 g.toNat (fun grp => grp.undirected b) with seq := .busy i 3 }
    exec i s = .next s1 ∧ exec i s1 = .next s2 ∧ exec i s2 = .next s3 ∧ exec i s3 = .next ((ended s s3).deliver r) := by
  intro s1 s2 s3
  have hg2 : g.toNat < s2.groups.length := hg.trans_eq (inGroup_length s1 _ _).symm
  have hg3 : g.toNat < s3.groups.length := hg2.trans_eq (inGroup_length s2 _ _).symm
  exact ⟨hi.exec_of_idle hs hg, (hi.exec_of_busy (s := s1) hs.1 hg rfl).trans (State.inputStep_one hg),
    (hi.exec_of_busy (s := s2) hs.1 hg2 rfl).trans (State.inputStep_two hg2), hi.exec_of_busy (s := s3) hs.1 hg3 rfl⟩

/-- Settles O20: IRESET runs the input sequence and delivers nothing. -/
theorem iresetMicroSteps : Obligations.IresetMicroSteps := fun _ g b p hs hg => (inputCommand_ireset g b p).microSteps hs hg

/-- Settles O21: ISETUP runs the input sequence on its pin and delivers the handle. -/
theorem isetupMicroSteps : Obligations.IsetupMicroSteps := fun s pin p hs hg => by
  have hsteps := (inputCommand_isetup pin p).microSteps hs (by rwa [pinPort_toNat])
  simp only [pinPort_toNat] at hsteps
  exact hsteps

/-! ## The drive inside the input sequence -/

section Drive
variable (grp : Group) (b : Pin) (p : Pull)

theorem Group.unrouted_pincfgAt : (grp.unrouted b p).pincfgAt b = pincfgByte false (pullOn p) := by
  rw [Group.unrouted, Group.pincfgAt_setPincfg, if_pos rfl, pincfgByte_plain]

theorem Group.unrouted_muxen : (grp.unrouted b p).muxen b = false := by
  rw [Group.muxen, Group.unrouted_pincfgAt]
  cases p <;> rfl

theorem Group.unrouted_pullen : (grp.unrouted b p).pullen b = pullOn p := by
  rw [Group.pullen, Group.unrouted_pincfgAt]
  cases p <;> rfl

theorem Group.undirected_dir : (grp.undirected b).dir.getLsbD b.toNat = false := by
  rw [Group.undirected, getLsbD_clear b.isLt, pinMask_getLsbD, decide_eq_true rfl, if_pos rfl]

/-- A pin that is no longer routed drives its latch while its direction bit is still set (R165). -/
theorem Group.unrouted_drive (hd : grp.dir.getLsbD b.toNat = true) :
    (grp.unrouted b p).drive b = .driven (grp.out.getLsbD b.toNat) := by
  have hd' : (grp.unrouted b p).dir.getLsbD b.toNat = true := hd
  rw [Group.drive, Group.unrouted_muxen, if_neg Bool.false_ne_true, if_pos hd']
  rfl

/-- With its direction bit cleared the pin is an input, with the pull asked for (R164). -/
theorem Group.undirected_drive : ((grp.unrouted b p).undirected b).drive b = .undriven (pullOn p) := by
  have hm : ((grp.unrouted b p).undirected b).muxen b = false := grp.unrouted_muxen b p
  rw [Group.drive, hm, if_neg Bool.false_ne_true, Group.undirected_dir, if_neg Bool.false_ne_true]
  exact congrArg _ (grp.unrouted_pullen b p)

end Drive

theorem inputCommand_of_eq (hi : i = .ireset g b p ∨ i = .isetup (pinOf g b) p) : ∃ r, InputCommand i g b p r := by
  rcases hi with rfl | rfl
  · exact ⟨_, inputCommand_ireset g b p⟩
  · have hpin := inputCommand_isetup (pinOf g b) p
    rw [show pinPort (pinOf g b) = g from port_pinOf g b, show pinBit (pinOf g b) = b from bit_pinOf g b] at hpin
    exact ⟨_, hpin⟩

/-- The command's group after micro-steps 1 and 2. -/
theorem InputCommand.runMicro_group (hi : InputCommand i g b p r) (hs : Accepting s) (hg : g.toNat < s.groups.length) :
    ∃ t u, runMicro i 2 s = .next t ∧ t.group g.toNat = (s.group g.toNat).unrouted b p ∧
      runMicro i 3 s = .next u ∧ u.group g.toNat = ((s.group g.toNat).unrouted b p).undirected b := by
  obtain ⟨h1, h2, h3, -⟩ := hi.microSteps hs hg
  refine ⟨_, _, (runMicro_succ h1 1).trans (runMicro_succ h2 0), ?_,
    (runMicro_succ h1 2).trans ((runMicro_succ h2 1).trans (runMicro_succ h3 0)), ?_⟩
  · exact inGroup_group_same hg _
  · exact (inGroup_group_same (hg.trans_eq (inGroup_length ..).symm) _).trans
      (congrArg (Group.undirected · b) (inGroup_group_same hg _))

/-- Settles O28: the routing goes at micro-step 1, the direction only at micro-step 2. -/
theorem inputPathDrivesStaleLatch : Obligations.InputPathDrivesStaleLatch := fun s g b p i hs hg hi _ hd => by
  obtain ⟨r, hi⟩ := inputCommand_of_eq hi
  obtain ⟨t, u, ht, hunrouted, hu, hundirected⟩ := hi.runMicro_group hs hg
  refine ⟨t, u, ht, ?_, hu, ?_, ?_⟩
  · rw [hunrouted]; exact Group.unrouted_drive _ b p hd
  · rw [hundirected]; exact Group.undirected_drive _ b p
  · rw [hundirected]; rfl

/-! ## IREAD -/

/-- IREAD delivers the level of its pin, the bit of the input word that its mask tests (R166), and uses a free value. -/
theorem exec_iread (hs : Accepting s) (hg : g.toNat < s.groups.length) : exec (.iread g b) s =
    .next ({ s with draws := s.draws + 1 }.deliver
      (some (.level ((s.group g.toNat).level s.loopbackExact (Config.pinLevels s.draws) b)))) := by
  obtain ⟨hl, hidle⟩ := hs
  rw [exec_of_idle rfl hl hidle, State.microStep, State.ireadStep, State.memRead_inp hg]
  simp only [and_pinMask_ne_zero, Group.inWord_getLsbD, ← hidle]

/-- Settles O17: the level is R31's. -/
theorem ireadEffect : Obligations.IreadEffect := fun s g b hs hg => by
  rw [exec_iread hs hg]
  simp [Group.level, Group.muxen, and_assoc]

/-- A plain output reads as its latch where `LOOPBACK_EXACT` holds, whatever the draw (R31). -/
theorem Group.level_of_plainOutput {grp : Group} (hm : grp.muxen b = false) (hd : grp.dir.getLsbD b.toNat = true)
    (env : Word) : grp.level true env b = grp.out.getLsbD b.toNat := by
  rw [Group.level, hm, hd]
  rfl

/-- After the output sequence the pin is a plain output at the level asked for. -/
theorem Group.outputBoundary_level (grp : Group) (b : Pin) (v : Bool) (env : Word) :
    (grp.outputBoundary b v 5).level true env b = v := by
  rw [Group.level_of_plainOutput (grp.outputBoundary_muxen b v le_rfl (by decide))
    (grp.outputBoundary_dir b v le_rfl (by decide)), grp.outputBoundary_out b v le_rfl (by decide)]

/-- Settles O30: OSETUP ends with the sequencer idle and its pin a plain output at `v`, which IREAD reads back. -/
theorem outputLoopsBack : Obligations.OutputLoopsBack := fun s pin v hs hg hloop => by
  rw [← pinPort_toNat] at hg
  let boundary := s.outputBoundary (.osetup pin v) (pinPort pin).toNat (pinBit pin) v (some (handleOf pin))
  have hrun : runMicro (.osetup pin v) 5 s = .next (boundary 5) :=
    runMicro_of_boundaries (f := boundary) fun _ hk => (outputCommand_osetup pin v).exec_boundary hs hg hk
  have hlevel (env : Word) :
      ((boundary 5).group (pinPort pin).toNat).level (boundary 5).loopbackExact env (pinBit pin) = v := by
    rw [State.group_outputBoundary hg, show (boundary 5).loopbackExact = true from hloop]
    exact Group.outputBoundary_level ..
  have hends : Accepting (boundary 5) := ⟨hs.1, rfl⟩
  refine ⟨boundary 5, _, hrun, exec_iread hends (by rwa [State.outputBoundary_length]), ?_⟩
  rw [hlevel]
  rfl

end Sys2Proof.Machine
end

section
/-! PROOFS. The rest of the state over an instruction: the contexts, `IE`, `TOKEN`, `TMP`, `SEQ`, the results and the count of
draws (10_state.md R34, R37, 43_bus_access.md R190), and a guarded command in execution, which runs alone (R36,
40_peripheral_mux.md R115). -/

namespace Sys2Proof.Machine

open Sys2Proof Sys2Proof.Claims

variable {s t : State} {i : Instr}

/-! ## What each part of the state can become -/

/-- Only a guarded command has a micro-step after its first (R241). -/
theorem guarded_of_lastMicroStep (h : lastMicroStep i ≠ 0) : guarded i = true := by
  cases i with
  | cfgp | osetup | oreset | isetup | ireset => rfl
  | _ => exact absurd rfl h

/-- An instruction neither begins nor ends a context, and issues no request of one. -/
theorem Effect.contexts (h : Effect i s t) : t.running = s.running ∧ t.preempted = s.preempted ∧ t.ready = s.ready := by
  cases h with
  | left => simp
  | loaded u q r hu => rcases hu with rfl | rfl <;> exact ⟨rfl, rfl, rfl⟩
  | wrote | entered | readMux | refused | halted => exact ⟨rfl, rfl, rfl⟩

/-- `IE`, `TOKEN` and `TMP` are the guard's: without one an instruction keeps all three (R190). -/
theorem Effect.of_unguarded (h : Effect i s t) (hi : guarded i = false) :
    t.ie = s.ie ∧ t.token = s.token ∧ t.tmp = s.tmp := by
  cases h with
  | entered k hlast => exact nomatch hi.symm.trans (guarded_of_lastMicroStep hlast)
  | left r hlast => exact nomatch hi.symm.trans (guarded_of_lastMicroStep hlast)
  | readMux g b f p heq => subst heq; cases hi
  | loaded u q r hu => rcases hu with rfl | rfl <;> exact ⟨rfl, rfl, rfl⟩
  | wrote | refused | halted => exact ⟨rfl, rfl, rfl⟩

/-- Beside CFGP, which reads its multiplexer byte into `TMP` (R112), only the end of a guard changes `TMP` (R34). -/
theorem Effect.tmp (h : Effect i s t) (hi : ∀ g b f p, i ≠ .cfgp g b f p) :
    t.tmp = s.tmp ∨ (guarded i = true ∧ t.seq = .idle ∧ t.tmp = Config.freeTmp s.draws) := by
  cases h with
  | left r hlast => exact .inr ⟨guarded_of_lastMicroStep hlast, by simp, by simp⟩
  | readMux g b f p heq => exact absurd heq (hi g b f p)
  | loaded u q r hu => rcases hu with rfl | rfl <;> exact .inl rfl
  | wrote | entered | refused | halted => exact .inl rfl

/-- An instruction delivers at most one result, to the running context (R80). -/
theorem Effect.delivered (h : Effect i s t) :
    t.delivered = s.delivered ∨ ∃ r, t.delivered = { ctx := s.running.id, result := r } :: s.delivered := by
  cases h with
  | left r =>
    cases r with
    | none => exact .inl rfl
    | some r => exact .inr ⟨r, rfl⟩
  | loaded u q r hu => rcases hu with rfl | rfl <;> exact .inr ⟨r, rfl⟩
  | wrote | entered | readMux | refused | halted => exact .inl rfl

/-- An instruction draws at most once: a read of IN for its levels (R31), the end of a guard for `TOKEN` and `TMP` (R34). -/
theorem Effect.draws (h : Effect i s t) :
    t.draws = s.draws ∨ (t.draws = s.draws + 1 ∧
      ((∃ g b, i = .iread g b) ∨ (∃ g, i = .ldwIn g) ∨ (guarded i = true ∧ t.seq = .idle))) := by
  cases h with
  | left r hlast => exact .inr ⟨by simp, .inr (.inr ⟨guarded_of_lastMicroStep hlast, by simp⟩)⟩
  | loaded u q r hu hi =>
    obtain hread | hread | ⟨-, rfl⟩ := hi
    · rcases hu with rfl | rfl
      · exact .inl rfl
      · exact .inr ⟨rfl, .inl hread⟩
    · rcases hu with rfl | rfl
      · exact .inl rfl
      · exact .inr ⟨rfl, .inr (.inl hread)⟩
    · exact .inl rfl
  | wrote | entered | readMux | refused | halted => exact .inl rfl

/-! ## The sequencer under a direct access -/

theorem State.busStore_seq {g : Nat} {r : Reg} {v : Word} (h : s.busStore g r v = .next t) : t.seq = s.seq := by
  obtain ⟨-, ⟨rfl, -⟩ | ⟨e, rfl⟩⟩ := State.busStore_next h <;> rfl

theorem State.busLoad_seq {g : Nat} {r : Reg} {out : Word → Result} (h : s.busLoad g r out = .next t) : t.seq = s.seq := by
  obtain ⟨-, ⟨v, u, rfl | rfl, rfl⟩ | ⟨e, rfl⟩⟩ := State.busLoad_next h <;> rfl

/-- A direct access leaves the sequencer as it is (R190). -/
theorem seq_of_exec_access (hi : target i = none) (h : exec i s = .next t) : t.seq = s.seq := by
  cases i with
  | stwDirclr | stwDirset | stwOutclr | stwOutset | stwOuttgl | stbPmux | stbPincfg => exact State.busStore_seq h
  | ldwIn | ldbPmux | ldbPincfg => exact State.busLoad_seq h
  | _ => cases hi

/-- Settles O35: the parts of the state one by one, each over the seven effects of an instruction. -/
theorem otherStateUnchanged : Obligations.OtherStateUnchanged := fun i s t h => by
  obtain ⟨-, he⟩ := exec_next h
  obtain ⟨hrunning, hpreempted, hready⟩ := he.contexts
  exact ⟨hrunning, hpreempted, hready, he.config, he.of_unguarded, he.tmp, fun hi => seq_of_exec_access hi h,
    he.delivered, he.draws⟩

/-! ## A guarded command in execution -/

/-- No interrupt context begins where `IE = 0` (R206). -/
theorem State.preemptible_of_masked (hie : s.ie = false) : s.preemptible = false := by
  rw [State.preemptible, hie, Bool.false_and]

/-- Settles O45: with `IE = 0` the step is the running context's, and with `SEQ` busy that is a micro-step of the command, which
changes no context. -/
theorem guardExcludesContexts : Obligations.GuardExcludesContexts := fun s t cmd k hs hie h => by
  obtain ⟨hl, -⟩ := step_next h
  rw [stepRunsBusyCommand s cmd k hl (State.preemptible_of_masked hie) hs] at h
  exact ⟨h, (exec_next h).2.contexts⟩

end Sys2Proof.Machine
end

section
/-! PROOFS. The fatal abort of a setup command (60_exceptions.md R201, R202, R204), and where interrupt contexts begin (R206,
10_state.md R35). -/

namespace Sys2Proof.Machine

open Sys2Proof Sys2Proof.Claims

variable {s t : State} {i : Instr}

/-! ## A setup command of a pin out of range -/

/-- An idle machine that accepts a setup command of a pin out of range raises its abort at once (R202, R204). -/
theorem exec_of_badPin {c : FatalCode} (hs : Accepting s) (hg : s.groups.length ≤ groupOf i) (hc : HaltsWith i c) :
    exec i s = .next { s with halt := some c } := by
  rw [exec_of_idle hc.target_isSome hs.1 hs.2]
  obtain ⟨rfl, pin, v, rfl⟩ | ⟨rfl, pin, p, rfl⟩ := hc
  · exact if_pos ⟨rfl, decide_eq_true hg⟩
  · exact if_pos ⟨rfl, decide_eq_true hg⟩

/-- Settles O24: each of the two setup commands raises its own abort. -/
theorem badPinHalts : Obligations.BadPinHalts := fun s pin v p hs hg => by
  rw [← pinPort_toNat] at hg
  exact ⟨exec_of_badPin hs hg (.inl ⟨rfl, pin, v, rfl⟩), exec_of_badPin hs hg (.inr ⟨rfl, pin, p, rfl⟩)⟩

/-! ## The interrupt contexts that wait -/

theorem State.finishContext_ready (s : State) : s.finishContext.ready = s.ready := by
  obtain ⟨-, he⟩ | ⟨c, rest, -, he⟩ := s.finishContext_eq <;> rw [he]

/-- An instruction begins no context that waits. -/
theorem exec_ready (h : exec i s = .next t) : t.ready = s.ready := by
  obtain ⟨-, -, hready⟩ := (exec_next h).2.contexts
  exact hready

theorem issue_ready {r : Request} {rest : List Request} (h : s.issue r rest = .next t) : t.ready = s.ready := by
  obtain ⟨e, rfl⟩ | ⟨i, -, he⟩ | ⟨ie, run, rfl⟩ := issue_next h
  · rfl
  · exact (exec_ready he).trans (State.issued_ready ..)
  · rfl

/-- A step of the running context changes none of the contexts that wait. -/
theorem proceed_ready (h : s.proceed = .next t) : t.ready = s.ready := by
  obtain ⟨cmd, k, -, he⟩ | ⟨-, ⟨-, rfl⟩ | ⟨r, rest, -, hi⟩⟩ := proceed_next h
  · exact exec_ready he
  · exact s.finishContext_ready
  · exact issue_ready hi

/-- With `IE = 0` a step is the running context's, so the contexts that wait go on waiting (R206). -/
theorem step_ready_of_masked (hie : s.ie = false) (h : step s = .next t) : t.ready = s.ready := by
  rw [step_eq_proceed (step_next h).1 (State.preemptible_of_masked hie)] at h
  exact proceed_ready h

/-- With `IE = 1` and a context that waits, one may begin (R206). -/
theorem State.preemptible_of_ready (hie : s.ie = true) (hr : s.ready ≠ []) : s.preemptible = true := by
  simp [State.preemptible, hie, hr]

/-- Where an interrupt context may begin, a step uses a free value (R206). -/
theorem State.polled_of_preemptible (hp : s.preemptible = true) : s.polled = { s with draws := s.draws + 1 } := if_pos hp

/-- Where an interrupt context may begin, the free value says which of those that wait, or none (R206). -/
theorem State.arriving_of_preemptible (hp : s.preemptible = true) :
    s.arriving = (Config.arrival s.draws).bind fun k => s.ready[k]?.map fun c => (c, s.ready.eraseIdx k) := by
  rw [State.arriving, if_pos hp]
  cases Config.arrival s.draws with
  | none => rfl
  | some k => cases hk : s.ready[k]? <;> simp [hk]

/-- An interrupt context that arrives begins, and the step does nothing else. -/
theorem step_of_arrival (hl : s.live = true) {c : Context} {rest : List Context} (ha : s.arriving = some (c, rest)) :
    step s = .next (s.polled.begin c rest) := by
  rw [step, State.advance, State.unlessStopped_live hl, ha]

/-- Where none arrives the running context takes its step. -/
theorem step_of_noArrival (hl : s.live = true) (ha : s.arriving = none) : step s = s.polled.proceed := by
  rw [step, State.advance, State.unlessStopped_live hl, ha]

/-- Settles O44: a free value that names no context that waits leaves the step to the running context; one that names a context
lets it begin. -/
theorem interruptsBeginWhereEnabled : Obligations.InterruptsBeginWhereEnabled := by
  refine ⟨fun s t => step_ready_of_masked, fun s hl hie hr => ?_⟩
  have hp := State.preemptible_of_ready hie hr
  have ha := State.arriving_of_preemptible hp
  rw [← State.polled_of_preemptible hp]
  cases hk : Config.arrival s.draws with
  | none =>
    rw [hk] at ha
    exact step_of_noArrival hl ha
  | some k =>
    cases hc : s.ready[k]? with
    | none =>
      simp only [hk, hc, Option.bind_some, Option.map_none] at ha
      simpa only [hc] using step_of_noArrival hl ha
    | some c =>
      simp only [hk, hc, Option.bind_some, Option.map_some] at ha
      simp only [hc, step_of_arrival hl ha, State.begin, State.polled_of_preemptible hp]

end Sys2Proof.Machine
end

section
/-! PROOFS. Reset and the end of a run (70_reset_and_hazards.md): the state after reset, which waits (R230, R231), what a good end
is and that it lasts (R240), and the bound on the micro-steps of a command (R241). -/

namespace Sys2Proof.Machine

open Sys2Proof Sys2Proof.Claims

variable {s t : State} {i : Instr} {g : Port} {b : Pin} {n : Nat}

/-! ## The state after reset -/

/-- No interrupt context begins where none waits (R206). -/
theorem State.preemptible_of_noneReady (h : s.ready = []) : s.preemptible = false := by
  rw [State.preemptible, h]; exact Bool.and_false _

/-- The state after reset carries the parameters it was given, `NUM_PORTS` as its number of groups. -/
theorem State.launch_config {c : Config} {groups : List Group} (h : groups.length = c.numPorts) (ie token : Bool)
    (tmp : Byte) : (State.launch c groups ie token tmp).config = c := by
  simp only [State.config, State.launch, h]

theorem State.launch_inv {c : Config} {groups : List Group} (hc : c.wf = true) (hn : groups.length = c.numPorts)
    (hr : ∀ grp ∈ groups, grp.Legal c.numFuncs) (ie token : Bool) (tmp : Byte) :
    (State.launch c groups ie token tmp).Inv :=
  .of_idle ((State.launch_config hn ie token tmp).symm ▸ hc) hr rfl

theorem Group.zero_pincfgAt (b : Pin) : Group.zero.pincfgAt b = 0 := Vector.getElem_replicate ..

theorem Group.zero_pmuxAt (k : Pair) : Group.zero.pmuxAt k = 0 := Vector.getElem_replicate ..

/-- Zero is a legal content of every configuration and multiplexer byte (R23, R26). -/
theorem Group.zero_legal {numFuncs : Nat} (h : 0 < numFuncs) : Group.zero.Legal numFuncs where
  pincfg b := by rw [Group.zero_pincfgAt]; rfl
  pmux k := by
    rw [Group.zero_pmuxAt, pmuxLegal_iff]
    intro odd
    cases odd <;> exact h

/-- Settles O47: the sequencer is idle, and the registers are legal by assumption, or zero in `State.reset`. -/
theorem invariantAtReset : Obligations.InvariantAtReset := by
  refine ⟨fun c groups ie token tmp hc hn hr => State.launch_inv hc hn hr ie token tmp, ?_⟩
  refine State.launch_inv (by decide) List.length_replicate (fun grp hgrp => ?_) false false 0
  rw [List.eq_of_mem_replicate hgrp]
  exact Group.zero_legal (by decide)

/-- Settles O49. -/
theorem resetState : Obligations.ResetState := fun _ _ _ _ _ => ⟨rfl, rfl, rfl, rfl, rfl⟩

/-- Settles O50: no context waits, and the running one ends with none preempted. -/
theorem nothingRunsAfterReset : Obligations.NothingRunsAfterReset := fun _ _ _ _ _ =>
  (contextEnds _ ⟨rfl, rfl⟩ (State.preemptible_of_noneReady rfl) rfl).2 rfl

/-! ## A good end -/

theorem not_addressesBlock_iff {r : Request} :
    (!addressesBlock r) = true ↔ (∀ w, r ≠ .command w) ∧ ∀ a, r ≠ .bus a := by
  cases r <;> simp [addressesBlock]

/-- A context is done with the block when none of the requests it has left is a command or an access. -/
theorem Context.issuedLast_iff {c : Context} :
    c.issuedLast = true ↔ ∀ r ∈ c.todo, (∀ w, r ≠ .command w) ∧ ∀ a, r ≠ .bus a := by
  simp only [Context.issuedLast, List.all_eq_true, not_addressesBlock_iff]

theorem State.goodEnd_iff : s.goodEnd = true ↔
    s.seq = .idle ∧ s.live = true ∧ ∀ c ∈ s.running :: s.preempted, c.issuedLast = true := by
  simp only [State.goodEnd, Bool.and_eq_true, beq_iff_eq, List.all_eq_true, List.forall_mem_cons, and_assoc]

/-- A request that is no command and no access touches `IE` and its context's tokens alone (R37). -/
theorem issue_of_notAddressing {r : Request} {rest : List Request} (hr : (!addressesBlock r) = true)
    (h : s.issue r rest = .next t) :
    ∃ ie tokens, t = { s with ie := ie, running := { s.running with todo := rest, tokens := tokens } } := by
  cases r with
  | command | bus => cases hr
  | enter | setIe => cases h; exact ⟨_, _, rfl⟩
  | exit =>
    simp only [State.issue, State.exitSection] at h
    split at h
    · cases h
    · cases h; exact ⟨_, _, rfl⟩

/-- From a good end a step of the running context ends it, or issues a request that does not address the block. -/
theorem proceed_of_goodEnd (hs : s.goodEnd = true) (h : s.proceed = .next t) :
    t.goodEnd = true ∧ t.groups = s.groups ∧ t.delivered = s.delivered := by
  obtain ⟨hidle, hl, hdone⟩ := State.goodEnd_iff.mp hs
  obtain ⟨hrun, hpre⟩ := List.forall_mem_cons.mp hdone
  obtain ⟨cmd, k, hbusy, -⟩ | ⟨-, ⟨-, rfl⟩ | ⟨r, rest, htodo, hi⟩⟩ := proceed_next h
  · exact nomatch hidle.symm.trans hbusy
  · obtain ⟨-, he⟩ | ⟨c, rest, hp, he⟩ := s.finishContext_eq
    · rw [he]; exact ⟨hs, rfl, rfl⟩
    · rw [he]; exact ⟨State.goodEnd_iff.mpr ⟨hidle, hl, hp ▸ hpre⟩, rfl, rfl⟩
  · rw [Context.issuedLast, htodo, List.all_cons, Bool.and_eq_true] at hrun
    obtain ⟨hr, hrest⟩ := hrun
    obtain ⟨ie, tokens, rfl⟩ := issue_of_notAddressing hr hi
    exact ⟨State.goodEnd_iff.mpr ⟨hidle, hl, List.forall_mem_cons.mpr ⟨hrest, hpre⟩⟩, rfl, rfl⟩

/-- Settles O51: with no interrupt context waiting a step is the running context's, which addresses the block no more. -/
theorem goodEndLasts : Obligations.GoodEndLasts := by
  refine ⟨fun s => ?_, fun s t hs hready h => ?_⟩
  · simp only [State.goodEnd_iff, State.live_iff, Context.issuedLast_iff, and_assoc]
  · rw [step_eq_proceed (step_next h).1 (State.preemptible_of_noneReady hready)] at h
    obtain ⟨hend, hgroups, hdelivered⟩ := proceed_of_goodEnd hs h
    exact ⟨hend, (proceed_ready h).trans hready, hgroups, hdelivered⟩

/-! ## A command completes -/

/-- From `s` the command `i` has `n` micro-steps to go: up to the last it stays inside its guard, and the last leaves an idle live
machine with `IE` at `ie` (R37, R241). -/
inductive Completes (i : Instr) (ie : Bool) : Nat → State → Prop where
  | last {s t : State} : exec i s = .next t → t.seq = .idle → t.ie = ie → t.live = true → Completes i ie 1 s
  | guarded {s t : State} {n k : Nat} : exec i s = .next t → t.seq = .busy i k → t.ie = false → Completes i ie n t →
      Completes i ie (n + 1) s

theorem Completes.inside {ie : Bool} (h : Completes i ie n s) {m : Nat} (hm : 0 < m) (hmn : m < n) :
    ∃ u, runMicro i m s = .next u ∧ u.seq ≠ .idle ∧ u.ie = false := by
  induction h generalizing m with
  | last => omega
  | @guarded s t n k hexec hseq hie _ ih =>
    match m with
    | 1 => exact ⟨t, runMicro_succ hexec 0, by rw [hseq]; exact Seq.noConfusion, hie⟩
    | m + 2 =>
      obtain ⟨u, hrun, hu⟩ := ih m.succ_pos (Nat.lt_of_succ_lt_succ hmn)
      exact ⟨u, (runMicro_succ hexec (m + 1)).trans hrun, hu⟩

theorem Completes.ends {ie : Bool} (h : Completes i ie n s) :
    ∃ t, runMicro i n s = .next t ∧ t.seq = .idle ∧ t.ie = ie ∧ t.live = true := by
  induction h with
  | last hexec hidle hie hl => exact ⟨_, runMicro_succ hexec 0, hidle, hie, hl⟩
  | guarded hexec _ _ _ ih =>
    obtain ⟨t, hrun, ht⟩ := ih
    exact ⟨t, (runMicro_succ hexec _).trans hrun, ht⟩

/-- An instruction without a guard completes at once and keeps `IE` (R190). -/
theorem completes_of_unguarded (hi : guarded i = false) (hs : Accepting s) (hw : WellFormed s.config i = true)
    (hg : groupOf i < s.groups.length) : Completes i s.ie 1 s := by
  have ha := exec_accepted hs.1 hs.2 hw
  generalize hexec : exec i s = o at ha
  cases ha with
  | entered hlast => exact nomatch hi.symm.trans (guarded_of_lastMicroStep hlast)
  | completed t hl hidle => exact .last hexec hidle ((exec_next hexec).2.of_unguarded hi).1 hl
  | halted c hbad => exact absurd hg (Nat.not_lt.mpr hbad)

theorem State.deliver_live (s : State) (r : Option Result) : (s.deliver r).live = s.live :=
  State.live_congr (s.deliver_halt r) (s.deliver_refused r)

/-- The output sequence completes in five micro-steps (R131, R133). -/
theorem OutputCommand.completes {v : Bool} {r : Option Result} (hi : OutputCommand i g b v r) (hs : Accepting s)
    (hg : g.toNat < s.groups.length) : Completes i s.ie 5 s := by
  have hstep {k : Nat} (hk : k < 5) := hi.exec_boundary hs hg hk
  have hlast : Completes i s.ie 1 (s.outputBoundary i g.toNat b v r 4) :=
    .last (hstep (by decide)) (State.deliver_seq _ r) (State.deliver_ie _ r) ((State.deliver_live _ r).trans hs.1)
  exact .guarded (hstep (k := 0) (by decide)) rfl rfl (.guarded (hstep (k := 1) (by decide)) rfl rfl
    (.guarded (hstep (k := 2) (by decide)) rfl rfl (.guarded (hstep (k := 3) (by decide)) rfl rfl hlast)))

/-- The input sequence completes in four micro-steps (R161, R163). -/
theorem InputCommand.completes {p : Pull} {r : Option Result} (hi : InputCommand i g b p r) (hs : Accepting s)
    (hg : g.toNat < s.groups.length) : Completes i s.ie 4 s := by
  obtain ⟨h1, h2, h3, h4⟩ := hi.microSteps hs hg
  have hlast : Completes i s.ie 1 _ :=
    .last h4 (State.deliver_seq _ r) (State.deliver_ie _ r) ((State.deliver_live _ r).trans hs.1)
  exact .guarded h1 rfl rfl (.guarded h2 rfl rfl (.guarded h3 rfl rfl hlast))

/-- CFGP completes in five micro-steps, or in three where it selects no function (R112, R114). -/
theorem cfgp_completes {f : FuncSel} {p : Pull} (hs : Accepting s) (hr : s.RegsLegal)
    (hw : WellFormed s.config (.cfgp g b f p) = true) :
    Completes (.cfgp g b f p) s.ie (microSteps (.cfgp g b f p)) s := by
  simp only [WellFormed, Bool.and_eq_true, decide_eq_true_eq, bne_iff_ne] at hw
  obtain ⟨⟨hg, hf⟩, hp⟩ := hw
  cases f with
  | gpio =>
    obtain ⟨h1, h2, h3⟩ := cfgpNoneMicroSteps s g b p hs hg hp
    exact .guarded h1 rfl rfl (.guarded h2 rfl rfl (.last h3 rfl rfl hs.1))
  | letter m =>
    have hbyte := (State.regsLegal_iff.mp hr _ hg).pmux (pinPair b)
    obtain ⟨h1, h2, h3, h4, h5⟩ := cfgpFunctionMicroSteps s g b m p hs hg (of_decide_eq_true hf) hp hbyte
    exact .guarded h1 rfl rfl (.guarded h2 rfl rfl (.guarded h3 rfl rfl (.guarded h4 rfl rfl (.last h5 rfl rfl hs.1))))

/-- Every well-formed instruction on a group that exists completes in its number of micro-steps (R241). -/
theorem completes_of_wellFormed (hs : Accepting s) (hw : WellFormed s.config i = true) (hg : groupOf i < s.groups.length)
    (hr : s.RegsLegal) : Completes i s.ie (microSteps i) s := by
  cases i with
  | cfgp => exact cfgp_completes hs hr hw
  | osetup pin v => exact (outputCommand_osetup pin v).completes hs hg
  | oreset g b v => exact (outputCommand_oreset g b v).completes hs hg
  | isetup pin p => exact (inputCommand_isetup pin p).completes hs hg
  | ireset g b p => exact (inputCommand_ireset g b p).completes hs hg
  | _ => exact completes_of_unguarded rfl hs hw hg

/-- Settles O25. -/
theorem commandsComplete : Obligations.CommandsComplete := fun _ _ hs hw hg hr =>
  have h := completes_of_wellFormed hs hw hg hr
  ⟨fun _ => h.inside, h.ends⟩

end Sys2Proof.Machine
end
